-- ==== Sys2Proof/Word.lean ====
section
/-! DEFINITION. The bit vectors of the AC3 Tomasulo scheduling core and the integer readings of its
data values (spec/00_scope.md rules R12, R13; widths from its parameter table). -/

namespace Sys2Proof

/-- A data value: XLEN = 32 bits (R13). `w.toNat` is the spec's `u(w)`, `w.toInt` its `s(w)`. -/
abbrev Word := BitVec 32

/-- One decoded instruction word: DIW_W = 64 bits (R65). -/
abbrev Diw := BitVec 64

/-- A register index as the instruction word and the reorder buffer hold it: RIDX_W = 5 bits. -/
abbrev RegIdx := BitVec 5

/-- An operation-kind code: OP_W = 3 bits (R70). -/
abbrev OpBits := BitVec 3

/-- `bv32(n)`: the 32-bit vector whose unsigned reading is n mod 2^32, for any integer n (R13). -/
def bv32 (n : Int) : Word := BitVec.ofInt 32 n

end Sys2Proof
end

