-- ==== Sys2Proof/Config.lean ====
section
/-! DEFINITION. The parameters an instance of the core is built with (spec/00_scope.md section 4, rules
R10, R11). They are data of a state (log 1), so every statement can range over all their values. -/

namespace Sys2Proof

/-- NREGS, ROB_SIZE, RS_SIZE and RF_INIT, fixed for a run (R10). PROG_CAP is the length of the
instruction sequence a state carries (R51, log 2). `rfInit` lists RF_INIT from register 0 up. -/
structure Params where
  nregs : Nat
  robSize : Nat
  rsSize : Nat
  rfInit : List Word
  deriving DecidableEq, Repr

/-- The constraints of R11, and that RF_INIT gives a value to each register. -/
abbrev Params.Ok (p : Params) : Prop :=
  1 ≤ p.nregs ∧ p.nregs ≤ 32 ∧ 1 ≤ p.robSize ∧ 1 ≤ p.rsSize ∧ p.rfInit.length = p.nregs

/-- The reference configuration of the parameter table: 32 registers, all 0 at reset, four reorder
buffer entries, four stations (DESIGN CHOICE, log 4 and log 5). -/
def Params.reference : Params :=
  { nregs := 32, robSize := 4, rsSize := 4, rfInit := List.replicate 32 0 }

/-- ceil(log2 n) for n >= 1; 0 for n = 0. -/
def ceilLog2 (n : Nat) : Nat := if n ≤ 1 then 0 else Nat.log2 (n - 1) + 1

/-- TAG_W, the width of a reorder-buffer index. -/
def Params.tagW (p : Params) : Nat := max 1 (ceilLog2 p.robSize)

/-- CNT_W, the width of the occupancy count. -/
def Params.cntW (p : Params) : Nat := max 1 (ceilLog2 (p.robSize + 1))

/-- RSI_W, the width of a station index. No field of the state has this width: the index of a station
is its place in the pool. -/
def Params.rsiW (p : Params) : Nat := max 1 (ceilLog2 p.rsSize)

end Sys2Proof
end

