-- ==== Sys2Proof/Syntax.lean ====
section
/-! DEFINITION. The operation kinds and the instructions (spec/00_scope.md R3, spec/30_encoding.md R67 to
R70; one constructor for each row of spec/opcode_table.json). -/

namespace Sys2Proof

/-- The operation kinds a reorder-buffer entry or a station can hold: HALT is never among them (R40). -/
inductive OpKind where
  | add
  | sub
  | mul
  | div
  | loadImm
  deriving DecidableEq, Repr

/-- The six instructions. Formats: RR for the first four (R67), I for `loadImm` (R68), N for `halt`
(R69). -/
inductive Instr where
  | add (rd rj rk : RegIdx)
  | sub (rd rj rk : RegIdx)
  | mul (rd rj rk : RegIdx)
  | div (rd rj rk : RegIdx)
  | loadImm (rd : RegIdx) (imm : Word)
  | halt
  deriving DecidableEq, Repr

end Sys2Proof
end

