-- ==== Sys2Proof/WellFormed.lean ====
section
/-! DEFINITION. Which instructions an instance with NREGS registers can decode (spec/30_encoding.md R72,
R76). -/

namespace Sys2Proof

/-- The register fields the instruction's format uses (R67, R68, R69): only these are checked (R72). -/
def Instr.regs : Instr → List RegIdx
  | .add rd rj rk => [rd, rj, rk]
  | .sub rd rj rk => [rd, rj, rk]
  | .mul rd rj rk => [rd, rj, rk]
  | .div rd rj rk => [rd, rj, rk]
  | .loadImm rd _ => [rd]
  | .halt => []

/-- Every register of the list exists in a file of `nregs` registers (R72). -/
def regsInRange (nregs : Nat) (rs : List RegIdx) : Bool := rs.all (fun r => decide (r.toNat < nregs))

/-- An instruction is well formed for NREGS registers when each register field it uses is below NREGS
(R72, R76). -/
def Instr.wellFormed (nregs : Nat) (i : Instr) : Bool := regsInRange nregs i.regs

end Sys2Proof
end

