-- ==== Sys2Proof/Decode.lean ====
section
/-! DEFINITION. The decoder, total on 64-bit words and rejecting by name, and the encoder, both from the
field and opcode tables of spec/30_encoding.md (R65, R66, R70, R76, R80). -/

namespace Sys2Proof

/-- OP, w[63:61] (R66). -/
def opField (w : Diw) : OpBits := w.extractLsb' 61 3

/-- RD, w[60:56] (R66). -/
def rdField (w : Diw) : RegIdx := w.extractLsb' 56 5

/-- RJ, w[55:51] (R66). -/
def rjField (w : Diw) : RegIdx := w.extractLsb' 51 5

/-- RK, w[50:46] (R66). -/
def rkField (w : Diw) : RegIdx := w.extractLsb' 46 5

/-- IMM, w[31:0], taken unchanged as a data value (R66, R71). -/
def immField (w : Diw) : Word := w.extractLsb' 0 32

/-- The code of an operation kind (R70). -/
def OpKind.code : OpKind → OpBits
  | .add => 0
  | .sub => 1
  | .mul => 2
  | .div => 3
  | .loadImm => 4

/-- The operation kind with a given code; none for HALT's code 5 and the reserved 6 and 7 (R70). -/
def OpKind.ofCode (c : OpBits) : Option OpKind :=
  if c = 0 then some .add
  else if c = 1 then some .sub
  else if c = 2 then some .mul
  else if c = 3 then some .div
  else if c = 4 then some .loadImm
  else none

/-- HALT's code (R70). -/
def haltCode : OpBits := 5

/-- The reasons of an `Invalid` verdict (R76). -/
inductive Invalid where
  /-- OP is 6 or 7 (R73). -/
  | unknownOperation
  /-- A used register field is NREGS or more (R72). -/
  | registerOutOfRange
  deriving DecidableEq, Repr

/-- What the decoder answers (R76). -/
inductive Verdict where
  | ok (i : Instr)
  | invalid (why : Invalid)
  deriving DecidableEq, Repr

/-- The range check of R76: the instruction if its used register fields are below NREGS. -/
def checkRegs (nregs : Nat) (i : Instr) : Verdict :=
  if i.wellFormed nregs then .ok i else .invalid .registerOutOfRange

/-- Decoding (R76): total on 64-bit words; every field a format does not use is ignored (R74). -/
def decode (nregs : Nat) (w : Diw) : Verdict :=
  if opField w = 0 then checkRegs nregs (.add (rdField w) (rjField w) (rkField w))
  else if opField w = 1 then checkRegs nregs (.sub (rdField w) (rjField w) (rkField w))
  else if opField w = 2 then checkRegs nregs (.mul (rdField w) (rjField w) (rkField w))
  else if opField w = 3 then checkRegs nregs (.div (rdField w) (rjField w) (rkField w))
  else if opField w = 4 then checkRegs nregs (.loadImm (rdField w) (immField w))
  else if opField w = haltCode then .ok .halt
  else .invalid .unknownOperation

/-- The instruction of a verdict, if it is one. -/
def Verdict.toOption : Verdict → Option Instr
  | .ok i => some i
  | .invalid _ => none

/-- An OP code placed in w[63:61] (R80). -/
def placeOp (c : OpBits) : Diw := c.setWidth 64 <<< 61

/-- A register index placed with its bit 0 at bit `at0` of the word (R80). -/
def placeReg (r : RegIdx) (at0 : Nat) : Diw := r.setWidth 64 <<< at0

/-- A word of format RR: OP, RD, RJ, RK, every other bit 0 (R80). -/
def encodeRR (c : OpBits) (rd rj rk : RegIdx) : Diw :=
  placeOp c ||| placeReg rd 56 ||| placeReg rj 51 ||| placeReg rk 46

/-- Encoding (R80): the assembler's word, 0 in each ignored bit (R74). -/
def encode : Instr → Diw
  | .add rd rj rk => encodeRR OpKind.add.code rd rj rk
  | .sub rd rj rk => encodeRR OpKind.sub.code rd rj rk
  | .mul rd rj rk => encodeRR OpKind.mul.code rd rj rk
  | .div rd rj rk => encodeRR OpKind.div.code rd rj rk
  | .loadImm rd imm => placeOp OpKind.loadImm.code ||| placeReg rd 56 ||| imm.setWidth 64
  | .halt => placeOp haltCode

/-- The 64-bit word of a table row's bits: `nbits` bits of `w`, the bits above them 0. -/
def tableWord (nbits w : Nat) : Diw := BitVec.ofNat 64 (w % 2 ^ nbits)

/-- The instruction the decoder reads from a table row's bits, in the reference configuration (NREGS = 32,
log 5). A row is one 64-bit word whose bit 0 is the word's bit 0; a longer row is no instruction of
this hardware (R75). -/
def decodeTableWord (nbits w : Nat) : Option Instr :=
  if nbits ≤ 64 then (decode Params.reference.nregs (tableWord nbits w)).toOption else none

end Sys2Proof
end

