-- ==== Sys2Proof/Machine/Alu.lean ====
section
/-! DEFINITION. `Compute` of each operation (spec/44_arith.md R145 to R149, spec/45_load_imm.md R160). -/

namespace Sys2Proof.Machine

/-- ADD: `bv32(u(j) + u(k))` (R145, R13). -/
def addResult (j k : Word) : Word := j + k

/-- SUB: `bv32(u(j) - u(k))`, J minus K (R146, R13). -/
def subResult (j k : Word) : Word := j - k

/-- MUL: the low 32 bits of the product (R147, R13). -/
def mulResult (j k : Word) : Word := j * k

/-- The integer quotient of the magnitudes, negated when the signs differ (R148). -/
def signedQuotient (j k : Word) : Int :=
  let q : Int := ((j.toInt.natAbs / k.toInt.natAbs : Nat) : Int)
  if (j.toInt < 0) ↔ (k.toInt < 0) then q else -q

/-- DIV, as R148 writes it out: 0 for a zero divisor, 0x80000000 for -2^31 by -1, else the signed quotient
rounded toward zero. -/
def divResult (j k : Word) : Word :=
  if k = 0 then 0
  else if j.toInt = -2 ^ 31 ∧ k.toInt = -1 then 0x80000000
  else bv32 (signedQuotient j k)

/-- LOAD-IMMEDIATE: operand J, the immediate; K is not used (R160). -/
def loadImmResult (j _k : Word) : Word := j

/-- `Compute(op, j, k)` (R122). -/
def compute : OpKind → Word → Word → Word
  | .add => addResult
  | .sub => subResult
  | .mul => mulResult
  | .div => divResult
  | .loadImm => loadImmResult

end Sys2Proof.Machine
end

