-- ==== Sys2Proof/Machine/State.lean ====
section
/-! DEFINITION. All state of the core (spec/10_state.md R20 to R43), with the run's constant inputs beside
it (R47, log 1 and log 2), the reasons a step can stop, and the state after reset (R45). -/

namespace Sys2Proof.Machine

/-- The three hardware fields of a reservation-station operand (R16, R41): `Tag(q)` when `qv`, else
`Val(v)`. `q` is a TAG_W-bit reorder-buffer index. -/
structure OperandFields where
  v : Word
  qv : Bool
  q : Nat
  deriving DecidableEq, Repr

/-- One reorder-buffer entry (R34 to R38). -/
structure RobEntry where
  op : OpBits
  dest : RegIdx
  value : Word
  ready : Bool
  inuse : Bool
  deriving DecidableEq, Repr

/-- One reservation station (R40 to R43). `dest` is a TAG_W-bit reorder-buffer index. -/
structure Station where
  op : OpBits
  j : OperandFields
  k : OperandFields
  dest : Nat
  occ : Bool
  deriving DecidableEq, Repr

/-- An operand with every field 0, its reset value (R45). -/
def OperandFields.zero : OperandFields := { v := 0, qv := false, q := 0 }

/-- An entry with every field 0, its reset value (R45). -/
def RobEntry.zero : RobEntry := { op := 0, dest := 0, value := 0, ready := false, inuse := false }

/-- A station with every field 0, its reset value (R45). -/
def Station.zero : Station :=
  { op := 0, j := OperandFields.zero, k := OperandFields.zero, dest := 0, occ := false }

end Sys2Proof.Machine

namespace Sys2Proof.Machine

/-- The state (R20) and the constant inputs of its run (R47).

* `cfg`, `im`: the parameters (R10) and the instruction sequence (R51); no step changes them.
* `rf`: the register file, register 0 first (R21).
* `pc`: the index of the next undispatched instruction (R25).
* `head`, `tail`, `count`: the reorder buffer's window (R28, R29, R30).
* `cycle`: the cycle number (R31).
* `rob`, `rs`: the reorder buffer and the reservation stations, index 0 first (R33, R39). -/
structure State where
  cfg : Params
  im : List Diw
  rf : List Word
  pc : BitVec 32
  head : Nat
  tail : Nat
  count : Nat
  cycle : BitVec 32
  rob : List RobEntry
  rs : List Station
  deriving DecidableEq, Repr

/-- The core raises no exception and has no fault of its own (R170, R171), so no step ends in a fault: the
type has no value (log 15). Safe: nothing the hardware does is lost. -/
inductive Fault where
  deriving DecidableEq, Repr

/-- Why the model gives a step no meaning (R174 to R176). A refusal is no hardware behaviour. -/
inductive Refusal where
  /-- Raised by `exec`'s arm of an instruction that has no meaning yet; no arm does. Safe. -/
  | notModelled (mnemonic : String)
  /-- Raised by `fetch` when OP of the word at pc is 6 or 7 (R73, R174). Safe: the spec gives no behaviour. -/
  | unknownOperation
  /-- Raised by `fetch` when a used register field of the word at pc is NREGS or more (R72, R174), and by
  `runCycle` for an instruction that no word decodes to. Safe. -/
  | registerOutOfRange
  /-- Raised by `fetch` and by `driverRun` when pc is PROG_CAP or more or no HALT lies at or after it (R175).
  Safe. -/
  | noHaltInSequence
  /-- Raised by `fetch`, `runCycle` and `driverRun` in a state that is not well formed (R176). Safe. -/
  | illFormedState
  deriving DecidableEq, Repr

/-- The reset state of an instance with parameters `p` whose loader has supplied `im` (R45, R190). -/
def State.resetWith (p : Params) (im : List Diw) : State :=
  { cfg := p
    im := im
    rf := p.rfInit
    pc := 0
    head := 0
    tail := 0
    count := 0
    cycle := 0
    rob := List.replicate p.robSize RobEntry.zero
    rs := List.replicate p.rsSize Station.zero }

/-- The machine right after reset in the reference configuration, before any loader has supplied an
instruction sequence (R45; log 3, log 4, log 5). -/
def State.reset : State := State.resetWith Params.reference []

end Sys2Proof.Machine
end

