-- ==== Sys2Proof/Machine/Flags.lean ====
section
/-! DEFINITION. The core has no condition codes and no operation writes a flag (spec/10_state.md R32). This
file holds the one-bit conditions the rules compute from the state: who is unready, who broadcasts,
which station is eligible, when Issue stalls, and whether a HALT lies ahead of the pc. -/

namespace Sys2Proof.Machine

/-- In use and not ready: a producer whose value is still to come (R104). -/
def RobEntry.unready (e : RobEntry) : Bool := e.inuse && !e.ready

/-- In use and ready: the entry broadcasts (R131) and, at the head, commits (R135). -/
def RobEntry.done (e : RobEntry) : Bool := e.inuse && e.ready

/-- The resolver's test for source register `r` (R104). -/
def RobEntry.produces (r : RegIdx) (e : RobEntry) : Bool := e.unready && e.dest == r

/-- Occupied with both operands values: the station executes this cycle (R121). -/
def Station.eligible (st : Station) : Bool := st.occ && !st.j.qv && !st.k.qv

/-- The reorder buffer is full (R103). -/
def State.robFull (s : State) : Bool := s.count == s.cfg.robSize

/-- The free station with the lowest index, if one is free (R107). -/
def State.freeStation (s : State) : Option Nat := s.rs.findIdx? (fun st => !st.occ)

/-- Issue stalls on this state (R103): the reorder buffer is full or no station is free. -/
def State.stalls (s : State) : Bool := s.robFull || s.freeStation.isNone

/-- The word is a HALT (R88). -/
def isHaltWord (w : Diw) : Bool := opField w == haltCode

/-- Some index from pc up to PROG_CAP-1 holds a HALT (R44 clause W9, R175); false when pc is PROG_CAP or
more. -/
def State.haltAhead (s : State) : Bool := (s.im.drop s.pc.toNat).any isHaltWord

end Sys2Proof.Machine
end

