-- ==== Sys2Proof/Machine/Operands.lean ====
section
/-! DEFINITION. Operands: their abstract form and hardware fields (spec/00_scope.md R16, spec/41_issue.md
R110), reading a register, and the tag resolver (R104). -/

namespace Sys2Proof.Machine

/-- An operand in the abstract (R16). -/
inductive Operand where
  | val (v : Word)
  | tag (k : Nat)
  deriving DecidableEq, Repr

/-- How Issue writes an operand into a station (R110): the unused field is 0. -/
def Operand.fields : Operand → OperandFields
  | .val v => { v := v, qv := false, q := 0 }
  | .tag k => { v := 0, qv := true, q := k }

/-- What a station's operand fields mean (R16). -/
def OperandFields.view (x : OperandFields) : Operand := if x.qv then .tag x.q else .val x.v

/-- `RF[r]` (R21). A well-formed state has the register whenever r is below NREGS; the 0 beyond the list is
never read in one (log 14). -/
def State.regAt (s : State) (r : RegIdx) : Word := s.rf.getD r.toNat 0

/-- `ROB[k]`. The zero entry beyond the list is never read in a well-formed state (log 14). -/
def State.robAt (s : State) (k : Nat) : RobEntry := s.rob.getD k RobEntry.zero

/-- `RS[i]`. The zero station beyond the list is never read in a well-formed state (log 14). -/
def State.rsAt (s : State) (i : Nat) : Station := s.rs.getD i Station.zero

/-- The tag resolver (R104): the first entry, by ascending array index from 0, that is in use, not ready
and has destination `r`; if there is none, the committed value. -/
def resolve (s : State) (r : RegIdx) : Operand :=
  match s.rob.findIdx? (RobEntry.produces r) with
  | some k => .tag k
  | none => .val (s.regAt r)

end Sys2Proof.Machine
end

