-- ==== Sys2Proof/Machine/Invariant.lean ====
section
/-! DEFINITION. The well-formedness invariant WF (spec/10_state.md R44, clauses W1 to W9) and the
representation of a hardware state (log 9): list lengths, field widths, parameter constraints. -/

namespace Sys2Proof.Machine

/-- `age(k)` (spec/00_scope.md R17). -/
def State.age (s : State) (k : Nat) : Nat := (k + s.cfg.robSize - s.head) % s.cfg.robSize

/-- A value fits a TAG_W-bit field. -/
abbrev State.TagFits (s : State) (k : Nat) : Prop := k < 2 ^ s.cfg.tagW

/-- The data is a state of the hardware: the parameters meet R11, the arrays have the sizes the parameters
give, PROG_CAP is at most 2^PC_W, and each index field of a station fits its width (log 9, log 10). -/
abbrev State.Shape (s : State) : Prop :=
  s.cfg.Ok ∧ s.rf.length = s.cfg.nregs ∧ s.rob.length = s.cfg.robSize ∧ s.rs.length = s.cfg.rsSize ∧
    s.im.length ≤ 2 ^ 32 ∧
    ∀ i, i < s.cfg.rsSize → s.TagFits (s.rsAt i).dest ∧ s.TagFits (s.rsAt i).j.q ∧ s.TagFits (s.rsAt i).k.q

/-- W1: the window's indexes and count are legal and agree. -/
abbrev State.W1 (s : State) : Prop :=
  s.count ≤ s.cfg.robSize ∧ s.head < s.cfg.robSize ∧ s.tail < s.cfg.robSize ∧
    s.tail = (s.head + s.count) % s.cfg.robSize

/-- W2: the in-use entries are the `count` entries from the head. -/
abbrev State.W2 (s : State) : Prop :=
  ∀ k, k < s.cfg.robSize → ((s.robAt k).inuse = true ↔ s.age k < s.count)

/-- W3: a ready entry is in use. -/
abbrev State.W3 (s : State) : Prop :=
  ∀ k, k < s.cfg.robSize → (s.robAt k).ready = true → (s.robAt k).inuse = true

/-- W4: an occupied station's destination entry is in use and not ready. -/
abbrev State.W4 (s : State) : Prop :=
  ∀ i, i < s.cfg.rsSize → (s.rsAt i).occ = true →
    (s.rsAt i).dest < s.cfg.robSize ∧ (s.robAt (s.rsAt i).dest).inuse = true ∧
      (s.robAt (s.rsAt i).dest).ready = false

/-- Station `i` is occupied and computes for entry `k`. -/
def State.feeds (s : State) (i k : Nat) : Bool := (s.rsAt i).occ && (s.rsAt i).dest == k

/-- W5: exactly one occupied station computes for each unready in-use entry. -/
abbrev State.W5 (s : State) : Prop :=
  ∀ k, k < s.cfg.robSize → (s.robAt k).inuse = true → (s.robAt k).ready = false →
    ∃ i, i < s.cfg.rsSize ∧ s.feeds i k = true ∧ ∀ i', i' < s.cfg.rsSize → s.feeds i' k = true → i' = i

/-- An in-use, unready entry strictly older than entry `d`: what a tag of a station with destination `d` may
name (W6). -/
def State.isOlderProducer (s : State) (q d : Nat) : Bool :=
  decide (q < s.cfg.robSize) && (s.robAt q).unready && decide (s.age q < s.age d)

/-- W6 for one operand of a station with destination `d`: a tag names an in-use, unready, strictly older
entry. -/
abbrev State.TagOk (s : State) (x : OperandFields) (d : Nat) : Prop :=
  x.qv = true → s.isOlderProducer x.q d = true

/-- W6: every tag of an occupied station is a legal one. -/
abbrev State.W6 (s : State) : Prop :=
  ∀ i, i < s.cfg.rsSize → (s.rsAt i).occ = true →
    s.TagOk (s.rsAt i).j (s.rsAt i).dest ∧ s.TagOk (s.rsAt i).k (s.rsAt i).dest

/-- W7: in-use entries hold an operation kind and an existing register, and a station's operation is its
entry's. -/
abbrev State.W7 (s : State) : Prop :=
  (∀ k, k < s.cfg.robSize → (s.robAt k).inuse = true →
    (OpKind.ofCode (s.robAt k).op).isSome = true ∧ (s.robAt k).dest.toNat < s.cfg.nregs) ∧
  (∀ i, i < s.cfg.rsSize → (s.rsAt i).occ = true → (s.rsAt i).op = (s.robAt (s.rsAt i).dest).op)

/-- W8: a LOAD-IMMEDIATE's station holds no tag. -/
abbrev State.W8 (s : State) : Prop :=
  ∀ i, i < s.cfg.rsSize → (s.rsAt i).occ = true → (s.rsAt i).op = OpKind.loadImm.code →
    (s.rsAt i).j.qv = false ∧ (s.rsAt i).k.qv = false

/-- W9: pc is below PROG_CAP and a HALT lies at or after it. -/
abbrev State.W9 (s : State) : Prop :=
  s.pc.toNat < s.im.length ∧
    ∃ a, a < s.im.length ∧ s.pc.toNat ≤ a ∧ isHaltWord (s.im.getD a 0) = true

/-- Every clause but W9: what a cycle needs whichever instruction it issues. -/
abbrev State.CoreWF (s : State) : Prop :=
  s.Shape ∧ s.W1 ∧ s.W2 ∧ s.W3 ∧ s.W4 ∧ s.W5 ∧ s.W6 ∧ s.W7 ∧ s.W8

/-- WF (R44). -/
abbrev State.WF (s : State) : Prop := s.CoreWF ∧ s.W9

/-- The check of `CoreWF` that a cycle makes of its start state (R176). -/
def State.coreOk (s : State) : Bool :=
  decide s.Shape && decide s.W1 && decide s.W2 && decide s.W3 && decide s.W4 && decide s.W5 && decide s.W6 &&
    decide s.W7 && decide s.W8

end Sys2Proof.Machine
end

