-- ==== Sys2Proof/Machine/Ops.lean ====
section
/-! DEFINITION. The named operations: reading the instruction sequence (spec/20_memory.md R51), the four
phases of a cycle and the counter update (spec/40_cycle.md R85), the cycle every instruction's meaning
runs, and fetching with the refusals of spec/60_exceptions.md (R174 to R176). The core takes no
exception and returns from none (R170, R178, R179), so there is no operation for either. -/

namespace Sys2Proof.Machine

/-! ### Instruction sequence -/

/-- `IMRead(a)`: the word at index a, none for a >= PROG_CAP (R51). -/
def State.imRead (s : State) (a : Nat) : Option Diw := s.im[a]?

/-! ### Updates, one for each thing a phase writes -/

/-- `RF[r] <- v` (R135). -/
def State.writeReg (s : State) (r : RegIdx) (v : Word) : State := { s with rf := s.rf.set r.toNat v }

/-- Write reorder-buffer entry k. -/
def State.setRob (s : State) (k : Nat) (e : RobEntry) : State := { s with rob := s.rob.set k e }

/-- Write station i. -/
def State.setRs (s : State) (i : Nat) (st : Station) : State := { s with rs := s.rs.set i st }

/-- `pc <- pc + 1` (R108). -/
def State.advancePc (s : State) : State := { s with pc := s.pc + 1 }

/-- The tail moves past the entry just allocated, modulo ROB_SIZE (R106). -/
def State.pushTail (s : State) : State :=
  { s with tail := (s.tail + 1) % s.cfg.robSize, count := s.count + 1 }

/-- The head moves past the entry just retired, modulo ROB_SIZE (R135). -/
def State.popHead (s : State) : State :=
  { s with head := (s.head + 1) % s.cfg.robSize, count := s.count - 1 }

/-! ### Issue (spec/41_issue.md) -/

/-- The allocated entry: `value` keeps what the entry held (R106, R36). -/
def RobEntry.allocate (e : RobEntry) (op : OpKind) (rd : RegIdx) : RobEntry :=
  { e with op := op.code, dest := rd, ready := false, inuse := true }

/-- The allocated station (R107, R110). -/
def newStation (op : OpKind) (j k : Operand) (dest : Nat) : Station :=
  { op := op.code, j := j.fields, k := k.fields, dest := dest, occ := true }

/-- A successful issue into the entry at tail and station `f` (R106, R107, R108). -/
def allocate (op : OpKind) (rd : RegIdx) (j k : Operand) (f : Nat) (s : State) : State :=
  (((s.setRob s.tail ((s.robAt s.tail).allocate op rd)).setRs f (newStation op j k s.tail)).pushTail).advancePc

/-- Issue of a non-HALT instruction with the operands `j` and `k` captured from the same state (R103, R112):
a stall leaves the state as it is. -/
def issue (op : OpKind) (rd : RegIdx) (j k : Operand) (s : State) : State :=
  if s.robFull then s
  else
    match s.freeStation with
    | none => s
    | some f => allocate op rd j k f s

/-- Issue of a format-RR instruction: both sources go through the resolver on the state before the
allocation (R105, R109). -/
def issueRR (op : OpKind) (rd rj rk : RegIdx) (s : State) : State :=
  issue op rd (resolve s rj) (resolve s rk) s

/-- Issue of LOAD-IMMEDIATE: J = Val(imm), K = Val(0), no register read (R160). -/
def issueImm (rd : RegIdx) (imm : Word) (s : State) : State :=
  issue .loadImm rd (.val imm) (.val 0) s

/-- Issue of HALT: nothing changes (R102, R165). -/
def issueHalt (s : State) : State := s

/-! ### Execute (spec/42_execute.md) -/

/-- What an eligible station computes (R122); none for a code that names no operation, which no well-formed
state holds (W7, log 13). -/
def Station.result (st : Station) : Option Word :=
  (OpKind.ofCode st.op).map (fun op => compute op st.j.v st.k.v)

/-- The value written to entry `k` this cycle: that of the eligible station whose destination is k (R122);
well-formed states have at most one (W5). -/
def State.resultFor (s : State) (k : Nat) : Option Word :=
  (s.rs.find? (fun st => st.eligible && st.dest == k)).bind Station.result

/-- The entry with its value computed and ready (R122). -/
def RobEntry.complete (e : RobEntry) (v : Word) : RobEntry := { e with value := v, ready := true }

/-- Entry `k` after Execute. -/
def State.executeEntry (s : State) (k : Nat) (e : RobEntry) : RobEntry :=
  match s.resultFor k with
  | some v => e.complete v
  | none => e

/-- The station after Execute: an eligible one frees itself, keeping every other field (R122, R43). -/
def Station.execute (st : Station) : Station := if st.eligible then { st with occ := false } else st

/-- Execute (R120): every eligible station at once. -/
def execute (s : State) : State :=
  { s with rob := s.rob.mapIdx (fun k e => s.executeEntry k e), rs := s.rs.map Station.execute }

/-! ### Broadcast (spec/43_broadcast_commit.md) -/

/-- An operand after Broadcast: a tag to an in-use ready entry becomes that entry's value; Q stays (R131). -/
def State.hear (s : State) (x : OperandFields) : OperandFields :=
  if x.qv && (s.robAt x.q).done then { x with v := (s.robAt x.q).value, qv := false } else x

/-- A station after Broadcast: only occupied stations listen (R131). -/
def State.hearStation (s : State) (st : Station) : Station :=
  if st.occ then { st with j := s.hear st.j, k := s.hear st.k } else st

/-- Broadcast (R130): every in-use ready entry to every waiting operand. -/
def broadcast (s : State) : State := { s with rs := s.rs.map s.hearStation }

/-! ### Commit and the cycle counter (spec/43_broadcast_commit.md) -/

/-- The retired entry: op, dest and value stay (R135). -/
def RobEntry.retire (e : RobEntry) : RobEntry := { e with inuse := false, ready := false }

/-- Commit (R134): the head alone, if it is in use and ready. -/
def commit (s : State) : State :=
  if (s.robAt s.head).done then
    ((s.writeReg (s.robAt s.head).dest (s.robAt s.head).value).setRob s.head (s.robAt s.head).retire).popHead
  else s

/-- CycleInc (R138). -/
def cycleInc (s : State) : State := { s with cycle := s.cycle + 1 }

/-! ### The cycle -/

/-- The cycle from the state after Issue to its end (R85): s1 to s'. -/
def finishCycle (s1 : State) : State := cycleInc (commit (broadcast (execute s1)))

/-- One cycle whose Issue phase is `iss`, for an instruction that uses the registers `regs`. Every rule
assumes a well-formed start state (R44, R176), and no word decodes to an instruction with a register out
of range (R76, log 11). -/
def runCycle (regs : List RegIdx) (iss : State → State) (s : State) : Host.Outcome State Fault Refusal :=
  if s.coreOk then
    if regsInRange s.cfg.nregs regs then .next (finishCycle (iss s)) else .refused .registerOutOfRange
  else .refused .illFormedState

/-! ### Fetching -/

/-- What fetching answers. -/
inductive Fetched where
  | instr (i : Instr)
  | refused (why : Refusal)
  deriving DecidableEq, Repr

/-- The refusal that stands for an `Invalid` verdict (R174). -/
def Refusal.ofInvalid : Invalid → Refusal
  | .unknownOperation => .unknownOperation
  | .registerOutOfRange => .registerOutOfRange

/-- The instruction of a word, or its refusal (R101, R174). -/
def decodeFetched (nregs : Nat) (w : Diw) : Fetched :=
  match decode nregs w with
  | .ok i => .instr i
  | .invalid why => .refused (.ofInvalid why)

/-- The refusal of a state that is not well formed (R176), noHaltInSequence where W9 alone fails (R175, U3;
log 6, log 8); none for a well-formed state. Steps and runs both start with it. -/
def State.startRefusal (s : State) : Option Refusal :=
  if s.coreOk then if s.haltAhead then none else some .noHaltInSequence else some .illFormedState

/-- The instruction at pc. The refusals are tried in the order illFormedState (R176), noHaltInSequence
(R175), the decoder's (R174): log 6. -/
def fetch (s : State) : Fetched :=
  match s.startRefusal with
  | some why => .refused why
  | none =>
    match s.imRead s.pc.toNat with
    | some w => decodeFetched s.cfg.nregs w
    | none => .refused .noHaltInSequence

/-- The assembler's HALT word (R80). -/
def haltWord : Diw := encode .halt

/-- The sequence `im` with `w` at index `a`: padded with HALT words up to `a` if it is shorter, and ended by
one more HALT, so that one lies after `a` (log 3). -/
def placeWord (im : List Diw) (a : Nat) (w : Diw) : List Diw :=
  ((im ++ List.replicate (a + 1 - im.length) haltWord).set a w) ++ [haltWord]

end Sys2Proof.Machine
end

