-- ==== Sys2Proof/Machine/Arith.lean ====
section
/-! DEFINITION. The meanings of ADD, SUB, MUL and DIV (spec/44_arith.md R145 to R150): the cycle in which the
instruction stands at pc. Its operation code selects the computation when its station executes, in this
cycle or a later one. -/

namespace Sys2Proof.Machine

/-- ADD rd, rj, rk (R145). -/
def execAdd (rd rj rk : RegIdx) (s : State) : Host.Outcome State Fault Refusal :=
  runCycle [rd, rj, rk] (issueRR .add rd rj rk) s

/-- SUB rd, rj, rk (R146). -/
def execSub (rd rj rk : RegIdx) (s : State) : Host.Outcome State Fault Refusal :=
  runCycle [rd, rj, rk] (issueRR .sub rd rj rk) s

/-- MUL rd, rj, rk (R147). -/
def execMul (rd rj rk : RegIdx) (s : State) : Host.Outcome State Fault Refusal :=
  runCycle [rd, rj, rk] (issueRR .mul rd rj rk) s

/-- DIV rd, rj, rk (R148). -/
def execDiv (rd rj rk : RegIdx) (s : State) : Host.Outcome State Fault Refusal :=
  runCycle [rd, rj, rk] (issueRR .div rd rj rk) s

end Sys2Proof.Machine
end

