-- ==== Sys2Proof/Machine/Halt.lean ====
section
/-! DEFINITION. The meaning of HALT (spec/46_halt.md R165): Issue changes nothing and the other phases run
as usual. -/

namespace Sys2Proof.Machine

/-- HALT (R165). -/
def execHalt (s : State) : Host.Outcome State Fault Refusal := runCycle [] issueHalt s

end Sys2Proof.Machine
end

