-- ==== Sys2Proof/Machine/LoadImm.lean ====
section
/-! DEFINITION. The meaning of LOAD-IMMEDIATE (spec/45_load_imm.md R160, R161). -/

namespace Sys2Proof.Machine

/-- LOAD-IMM rd, imm (R160). -/
def execLoadImm (rd : RegIdx) (imm : Word) (s : State) : Host.Outcome State Fault Refusal :=
  runCycle [rd] (issueImm rd imm) s

end Sys2Proof.Machine
end

