-- ==== Sys2Proof/Machine/Dispatch.lean ====
section
/-! DEFINITION. One arm for each instruction. -/

namespace Sys2Proof.Machine

def exec (i : Instr) (s : State) : Host.Outcome State Fault Refusal :=
  match i with
  | .add rd rj rk => Sys2Proof.Machine.execAdd rd rj rk s
  | .sub rd rj rk => Sys2Proof.Machine.execSub rd rj rk s
  | .mul rd rj rk => Sys2Proof.Machine.execMul rd rj rk s
  | .div rd rj rk => Sys2Proof.Machine.execDiv rd rj rk s
  | .loadImm rd imm => Sys2Proof.Machine.execLoadImm rd imm s
  | .halt => Sys2Proof.Machine.execHalt s

end Sys2Proof.Machine
end

