-- ==== Sys2Proof/Machine/Step.lean ====
section
/-! DEFINITION. One step is one clock cycle with `step_en` = 1 (spec/40_cycle.md R85, R90). -/

namespace Sys2Proof.Machine

/-- Fetch the instruction at pc and run the cycle in which it stands there; a state or word without a meaning
is refused by name (R174 to R176). -/
def step (s : State) : Host.Outcome State Fault Refusal :=
  match fetch s with
  | .instr i => exec i s
  | .refused why => .refused why

/-- The loader's act for one word: the table row's bits stand at pc, and a HALT after them, as the loader's
precondition asks (R93; log 3). -/
def State.withFetchWord (s : State) (nbits w : Nat) : State :=
  { s with im := placeWord s.im s.pc.toNat (tableWord nbits w) }

end Sys2Proof.Machine
end

