-- ==== Sys2Proof/Machine/Ports.lean ====
section
/-! DEFINITION. The core's ports (spec/40_cycle.md R87 to R90). `obs` is the state itself (R46). -/

namespace Sys2Proof.Machine

/-- `im_addr`: equals pc (R87). -/
def State.imAddr (s : State) : BitVec 32 := s.pc

/-- `im_data`: the word at `im_addr`, none where the sequence has no such word (R87, R51). -/
def State.imData (s : State) : Option Diw := s.imRead s.imAddr.toNat

/-- `halt_next`: the word at pc has HALT's code (R88); no value where there is no word (log 16). -/
def State.haltNext (s : State) : Option Bool := s.imData.map isHaltWord

/-- `rob_empty`: `count = 0` (R89). -/
def State.robEmpty (s : State) : Bool := s.count == 0

/-- Reset of a running instance (R190): every state element takes its reset value; the parameters and the
sequence stay. -/
def State.applyReset (s : State) : State := State.resetWith s.cfg s.im

/-- An active clock edge (R90): `rst` first, then `step_en`, else no change. -/
def clockEdge (rst stepEn : Bool) (s : State) : Host.Outcome State Fault Refusal :=
  if rst then .next s.applyReset else if stepEn then step s else .next s

end Sys2Proof.Machine
end

