-- ==== Sys2Proof/Machine/Driver.lean ====
section
/-! DEFINITION. A run and its end (spec/40_cycle.md R92), as the driver makes it: the stop test comes before
each step. The driver's policy is outside the core (R7), so its cap is an argument (U13, log 12). -/

namespace Sys2Proof.Machine

/-- Condition (a): HALT is next and the reorder buffer is empty (R92). -/
def State.drained (s : State) : Bool := s.haltNext == some true && s.robEmpty

/-- Condition (b): the cycle number has reached MAX_CYCLES (R92). -/
def State.capped (maxCycles : Nat) (s : State) : Bool := s.cycle.toNat == maxCycles

/-- How a run stands. -/
inductive RunEnd where
  /-- Ended by (a). -/
  | complete (s : State)
  /-- Ended by (b): the state is not final. -/
  | truncated (s : State)
  /-- The start state or a step was refused; a refusal is sticky. -/
  | refused (why : Refusal)
  /-- The number of steps asked for is used up and the run has not ended. -/
  | running (s : State)
  deriving DecidableEq, Repr

/-- The run from `s` for at most `fuel` steps, with a stop test before each step and one after the last
(R92; (a) is tried before (b), log 12). A start state that is not well formed is refused before the first
stop test (R176); the states after it are well formed (R195), so testing each is the same (log 7). -/
def driverRun (maxCycles : Nat) : Nat → State → RunEnd
  | fuel, s =>
    match s.startRefusal with
    | some why => .refused why
    | none =>
      if s.drained then .complete s
      else if s.capped maxCycles then .truncated s
      else
        match fuel with
        | 0 => .running s
        | n + 1 =>
          match step s with
          | .next t => driverRun maxCycles n t
          | .refused why => .refused why
          | .fault f => nomatch f

end Sys2Proof.Machine
end

