-- ==== Sys2Proof/Safety.lean ====
section
/-! DEFINITION. The terms claims are made in: what the loader must supply (spec/40_cycle.md R93), the Issue
phase of an instruction, and the sequential machine a run from an empty reorder buffer is compared with
(spec/70_reset_and_hazards.md R197). -/

namespace Sys2Proof

/-- The instructions before the first HALT of a sequence, if every word up to that HALT decodes and there is
one (R93): the loader's precondition holds exactly when this is not none. -/
def programOf (nregs : Nat) : List Diw → Option (List Instr)
  | [] => none
  | w :: ws =>
    match decode nregs w with
    | .ok .halt => some []
    | .ok i => (programOf nregs ws).map (i :: ·)
    | .invalid _ => none

/-- The loader's precondition (R93). -/
def LoaderOk (nregs : Nat) (im : List Diw) : Prop := (programOf nregs im).isSome = true ∧ im.length ≤ 2 ^ 32

/-- The bits of the word that an instruction's format uses: OP, RD, RJ, RK for RR, OP, RD, IMM for I, OP for N
(R67, R68, R69). -/
def usedMask : Instr → Diw
  | .add _ _ _ => 0xFFFFC00000000000
  | .sub _ _ _ => 0xFFFFC00000000000
  | .mul _ _ _ => 0xFFFFC00000000000
  | .div _ _ _ => 0xFFFFC00000000000
  | .loadImm _ _ => 0xFF000000FFFFFFFF
  | .halt => 0xE000000000000000

/-- The bits of a word that the format of its own OP code uses; of a reserved code, OP alone (R73, R74). -/
def wordMask (w : Diw) : Diw :=
  if (opField w).toNat ≤ 3 then 0xFFFFC00000000000
  else if opField w = 4 then 0xFF000000FFFFFFFF
  else 0xE000000000000000

end Sys2Proof

namespace Sys2Proof.Machine

/-- The Issue phase of instruction `i` on s0 (R112): s1. -/
def issuePhase : Instr → State → State
  | .add rd rj rk => issueRR .add rd rj rk
  | .sub rd rj rk => issueRR .sub rd rj rk
  | .mul rd rj rk => issueRR .mul rd rj rk
  | .div rd rj rk => issueRR .div rd rj rk
  | .loadImm rd imm => issueImm rd imm
  | .halt => issueHalt

/-- The register an instruction writes at its commit; none for HALT. -/
def destOf : Instr → Option RegIdx
  | .add rd _ _ => some rd
  | .sub rd _ _ => some rd
  | .mul rd _ _ => some rd
  | .div rd _ _ => some rd
  | .loadImm rd _ => some rd
  | .halt => none

/-- The operation kind an instruction puts into the machine; none for HALT. -/
def kindOf : Instr → Option OpKind
  | .add _ _ _ => some .add
  | .sub _ _ _ => some .sub
  | .mul _ _ _ => some .mul
  | .div _ _ _ => some .div
  | .loadImm _ _ => some .loadImm
  | .halt => none

/-- One instruction of the sequential machine: `Compute` on the registers' present values (R197). -/
def seqExec (i : Instr) (rf : List Word) : List Word :=
  match i with
  | .add rd rj rk => rf.set rd.toNat (addResult (rf.getD rj.toNat 0) (rf.getD rk.toNat 0))
  | .sub rd rj rk => rf.set rd.toNat (subResult (rf.getD rj.toNat 0) (rf.getD rk.toNat 0))
  | .mul rd rj rk => rf.set rd.toNat (mulResult (rf.getD rj.toNat 0) (rf.getD rk.toNat 0))
  | .div rd rj rk => rf.set rd.toNat (divResult (rf.getD rj.toNat 0) (rf.getD rk.toNat 0))
  | .loadImm rd imm => rf.set rd.toNat imm
  | .halt => rf

/-- The instructions applied in order (R197). -/
def seqRun (is : List Instr) (rf : List Word) : List Word := is.foldl (fun r i => seqExec i r) rf

/-- Issue allocates for instruction `i` this cycle: it is not HALT and nothing stalls it (R102, R103). -/
def issuesNow (i : Instr) (s : State) : Bool := (kindOf i).isSome && !s.stalls

/-- The operands Issue captures for an instruction in `s` (R109, R160); none for HALT. -/
def operandsOf (i : Instr) (s : State) : Option (Operand × Operand) :=
  match i with
  | .add _ rj rk => some (resolve s rj, resolve s rk)
  | .sub _ rj rk => some (resolve s rj, resolve s rk)
  | .mul _ rj rk => some (resolve s rj, resolve s rk)
  | .div _ rj rk => some (resolve s rj, resolve s rk)
  | .loadImm _ imm => some (.val imm, .val 0)
  | .halt => none

/-- Every clause of WF that holds between the phases of a cycle: W1 to W5, W7, W8 (R195). -/
abbrev State.PhaseWF (s : State) : Prop :=
  s.Shape ∧ s.W1 ∧ s.W2 ∧ s.W3 ∧ s.W4 ∧ s.W5 ∧ s.W7 ∧ s.W8

/-- The state one cycle leaves when an instruction with code `op`, destination `rd` and operand values `j`, `k`
issues from an empty reorder buffer and gives `v`: it uses the entry at the head and station 0, and
commits in the same cycle (R196). -/
def retiredAtOnce (op : OpBits) (rd : RegIdx) (j k v : Word) (s : State) : State :=
  { s with
    rf := s.rf.set rd.toNat v
    pc := s.pc + 1
    head := (s.head + 1) % s.cfg.robSize
    tail := (s.head + 1) % s.cfg.robSize
    cycle := s.cycle + 1
    rob := s.rob.set s.head { op := op, dest := rd, value := v, ready := false, inuse := false }
    rs := s.rs.set 0
      { op := op
        j := { v := j, qv := false, q := 0 }
        k := { v := k, qv := false, q := 0 }
        dest := s.head
        occ := false } }

/-- The register the cycle of instruction `i` writes: the head entry's, or that of the instruction itself when
it issues into an empty reorder buffer; none if nothing commits (R135, R198). -/
def committedReg (i : Instr) (s : State) : Option RegIdx :=
  if s.count = 0 then if issuesNow i s then destOf i else none else some (s.robAt s.head).dest

/-- What one cycle from `s` makes of a captured operand `x` of a station that does not execute in it: a value
stays (R113); a tag becomes the value its producer computes in this cycle, or stays if the producer's
station is not eligible (R121, R131). -/
def OperandAfter (s : State) (x x' : OperandFields) : Prop :=
  (x.qv = false → x' = x) ∧
  (x.qv = true → ∀ m op, m < s.cfg.rsSize → s.feeds m x.q = true → OpKind.ofCode (s.rsAt m).op = some op →
    x' = if (s.rsAt m).eligible then
        { v := compute op (s.rsAt m).j.v (s.rsAt m).k.v, qv := false, q := x.q }
      else x)

end Sys2Proof.Machine
end

