-- ==== Sys2Proof/Certificates/Slice0/Obligations.lean ====
section
/-! DEFINITION. The statements for the provers, from the numbered rules of spec/. -/

open Sys2Proof Sys2Proof.Machine

/-! ### Encoding -/

/-- Words of spec/30_encoding.md R80 and of the programs of spec/95_test_vectors.md, one for each
instruction, decode to the instruction they stand for. -/
def Obligations.SpecWordsDecode : Prop :=
  decode 32 0x0308800000000000 = .ok (.add 3 1 2) ∧
  decode 32 0x2510400000000000 = .ok (.sub 5 2 1) ∧
  decode 32 0x4208400000000000 = .ok (.mul 2 1 1) ∧
  decode 32 0x6308800000000000 = .ok (.div 3 1 2) ∧
  decode 32 0x8100000000000005 = .ok (.loadImm 1 5) ∧
  decode 32 0xA000000000000000 = .ok .halt

/-- R76, with each field read as a number from the word (R66): the whole decoder, for every NREGS. -/
def Obligations.DecodeByFields : Prop :=
  ∀ (n : Nat) (w : Diw) (op rd rj rk : Nat),
    op = w.toNat / 2 ^ 61 → rd = w.toNat / 2 ^ 56 % 32 → rj = w.toNat / 2 ^ 51 % 32 → rk = w.toNat / 2 ^ 46 % 32 →
    (op ≤ 3 → rd < n → rj < n → rk < n →
      decode n w = .ok
        (if op = 0 then .add (BitVec.ofNat 5 rd) (BitVec.ofNat 5 rj) (BitVec.ofNat 5 rk)
        else if op = 1 then .sub (BitVec.ofNat 5 rd) (BitVec.ofNat 5 rj) (BitVec.ofNat 5 rk)
        else if op = 2 then .mul (BitVec.ofNat 5 rd) (BitVec.ofNat 5 rj) (BitVec.ofNat 5 rk)
        else .div (BitVec.ofNat 5 rd) (BitVec.ofNat 5 rj) (BitVec.ofNat 5 rk))) ∧
    (op ≤ 3 → ¬(rd < n ∧ rj < n ∧ rk < n) → decode n w = .invalid .registerOutOfRange) ∧
    (op = 4 → rd < n → decode n w = .ok (.loadImm (BitVec.ofNat 5 rd) (BitVec.ofNat 32 w.toNat))) ∧
    (op = 4 → ¬ rd < n → decode n w = .invalid .registerOutOfRange) ∧
    (op = 5 → decode n w = .ok .halt) ∧
    (op = 6 ∨ op = 7 → decode n w = .invalid .unknownOperation)

/-- R80: the assembler's word as a sum of its fields. -/
def Obligations.EncodeIsTheFormula : Prop :=
  ∀ (rd rj rk : RegIdx) (imm : Word),
    (encode (.add rd rj rk)).toNat = 0 * 2 ^ 61 + rd.toNat * 2 ^ 56 + rj.toNat * 2 ^ 51 + rk.toNat * 2 ^ 46 ∧
    (encode (.sub rd rj rk)).toNat = 1 * 2 ^ 61 + rd.toNat * 2 ^ 56 + rj.toNat * 2 ^ 51 + rk.toNat * 2 ^ 46 ∧
    (encode (.mul rd rj rk)).toNat = 2 * 2 ^ 61 + rd.toNat * 2 ^ 56 + rj.toNat * 2 ^ 51 + rk.toNat * 2 ^ 46 ∧
    (encode (.div rd rj rk)).toNat = 3 * 2 ^ 61 + rd.toNat * 2 ^ 56 + rj.toNat * 2 ^ 51 + rk.toNat * 2 ^ 46 ∧
    (encode (.loadImm rd imm)).toNat = 4 * 2 ^ 61 + rd.toNat * 2 ^ 56 + imm.toNat ∧
    (encode .halt).toNat = 5 * 2 ^ 61 ∧
    encode (.loadImm 1 5) = 0x8100000000000005 ∧ encode (.add 3 1 2) = 0x0308800000000000

/-- Every instruction whose registers exist is read back from its own word, for every NREGS (R76, R80). -/
def Obligations.DecodeEncodeRoundTrip : Prop :=
  ∀ (n : Nat) (i : Instr), i.wellFormed n = true → decode n (encode i) = .ok i

/-- The assembler's word of a decoded instruction is the word with its ignored bits cleared (R74, R78). -/
def Obligations.EncodeKeepsTheUsedBits : Prop :=
  ∀ (n : Nat) (w : Diw) (i : Instr), decode n w = .ok i → encode i = w &&& usedMask i

/-- R74: two words that differ only in bits the format ignores decode to the same, and a step of two machines
that differ only in such bits of one word ends the same, up to that word; the assembler writes 0 there. -/
def Obligations.IgnoredBitsBehaveTheSame : Prop :=
  (∀ (n : Nat) (w w' : Diw), w' &&& wordMask w = w &&& wordMask w → decode n w' = decode n w) ∧
  (∀ (w w' : Diw) (s : State) (a : Nat), w' &&& wordMask w = w &&& wordMask w → s.im[a]? = some w →
    (∀ t, step s = .next t → step { s with im := s.im.set a w' } = .next { t with im := s.im.set a w' }) ∧
    (∀ r, step s = .refused r → step { s with im := s.im.set a w' } = .refused r)) ∧
  (∀ i : Instr, encode i &&& ~~~ usedMask i = 0)

/-! ### The computations -/

/-- R149: the three wrapping operations give the low 32 bits of the exact result, whether the operands are read
as unsigned or as signed (R145, R146, R147). -/
def Obligations.WrappingResults : Prop :=
  ∀ j k : Word,
    addResult j k = bv32 ((j.toNat : Int) + k.toNat) ∧ addResult j k = bv32 (j.toInt + k.toInt) ∧
    subResult j k = bv32 ((j.toNat : Int) - k.toNat) ∧ subResult j k = bv32 (j.toInt - k.toInt) ∧
    mulResult j k = bv32 ((j.toNat : Int) * k.toNat) ∧ mulResult j k = bv32 (j.toInt * k.toInt)

/-- R148: a zero divisor gives 0, -2^31 by -1 gives 0x80000000, and every other quotient is exact integer
division rounded toward zero. -/
def Obligations.DivRoundsTowardZero : Prop :=
  (∀ j : Word, divResult j 0 = 0) ∧
  (∀ j k : Word, j.toInt = -2 ^ 31 → k.toInt = -1 → divResult j k = 0x80000000) ∧
  (∀ j k : Word, k ≠ 0 → ¬(j.toInt = -2 ^ 31 ∧ k.toInt = -1) → (divResult j k).toInt = j.toInt.tdiv k.toInt)

/-! ### The instructions from an empty reorder buffer -/

/-- ADD with nothing in flight: the whole next state (R145, R196). -/
def Obligations.AddFromEmptyRob : Prop :=
  ∀ (s : State) (rd rj rk : RegIdx), s.CoreWF → s.count = 0 → rd.toNat < s.cfg.nregs → rj.toNat < s.cfg.nregs →
    rk.toNat < s.cfg.nregs →
    exec (.add rd rj rk) s = .next (retiredAtOnce 0 rd (s.regAt rj) (s.regAt rk)
      (bv32 ((s.regAt rj).toNat + (s.regAt rk).toNat)) s)

/-- SUB with nothing in flight: the whole next state (R146, R196). -/
def Obligations.SubFromEmptyRob : Prop :=
  ∀ (s : State) (rd rj rk : RegIdx), s.CoreWF → s.count = 0 → rd.toNat < s.cfg.nregs → rj.toNat < s.cfg.nregs →
    rk.toNat < s.cfg.nregs →
    exec (.sub rd rj rk) s = .next (retiredAtOnce 1 rd (s.regAt rj) (s.regAt rk)
      (bv32 ((s.regAt rj).toNat - (s.regAt rk).toNat)) s)

/-- MUL with nothing in flight: the whole next state (R147, R196). -/
def Obligations.MulFromEmptyRob : Prop :=
  ∀ (s : State) (rd rj rk : RegIdx), s.CoreWF → s.count = 0 → rd.toNat < s.cfg.nregs → rj.toNat < s.cfg.nregs →
    rk.toNat < s.cfg.nregs →
    exec (.mul rd rj rk) s = .next (retiredAtOnce 2 rd (s.regAt rj) (s.regAt rk)
      (bv32 ((s.regAt rj).toNat * (s.regAt rk).toNat)) s)

/-- DIV with nothing in flight: the whole next state (R148, R196). -/
def Obligations.DivFromEmptyRob : Prop :=
  ∀ (s : State) (rd rj rk : RegIdx), s.CoreWF → s.count = 0 → rd.toNat < s.cfg.nregs → rj.toNat < s.cfg.nregs →
    rk.toNat < s.cfg.nregs →
    exec (.div rd rj rk) s = .next (retiredAtOnce 3 rd (s.regAt rj) (s.regAt rk)
      (if s.regAt rk = 0 then 0
      else if (s.regAt rj).toInt = -2 ^ 31 ∧ (s.regAt rk).toInt = -1 then 0x80000000
      else bv32 ((s.regAt rj).toInt.tdiv (s.regAt rk).toInt)) s)

/-- LOAD-IMMEDIATE with nothing in flight: the whole next state (R160, R196). -/
def Obligations.LoadImmFromEmptyRob : Prop :=
  ∀ (s : State) (rd : RegIdx) (imm : Word), s.CoreWF → s.count = 0 → rd.toNat < s.cfg.nregs →
    exec (.loadImm rd imm) s = .next (retiredAtOnce 4 rd imm 0 imm s)

/-- HALT with nothing in flight changes only the cycle number (R94, R165). -/
def Obligations.HaltFromEmptyRob : Prop :=
  ∀ s : State, s.CoreWF → s.count = 0 → exec .halt s = .next { s with cycle := s.cycle + 1 }

/-! ### The instructions in a busy machine -/

/-- Every instruction but HALT, whatever is in flight: if an entry and a station are free, the cycle completes
with the instruction allocated at the tail and in the lowest free station; with two values it executes
in this cycle, and with nothing older in flight it commits too; else it waits (R106 to R110, R121, R122,
R137, R160). -/
def Obligations.IssueAllocatesAndExecutes : Prop :=
  ∀ (i : Instr) (s : State) (op : OpKind) (rd : RegIdx) (j k : Operand) (f : Nat),
    s.CoreWF → i.wellFormed s.cfg.nregs = true → kindOf i = some op → destOf i = some rd →
    operandsOf i s = some (j, k) → s.count < s.cfg.robSize →
    f < s.cfg.rsSize → (s.rsAt f).occ = false → (∀ n, n < f → (s.rsAt n).occ = true) →
    ∃ t, exec i s = .next t ∧ t.pc = s.pc + 1 ∧ t.tail = (s.tail + 1) % s.cfg.robSize ∧
      (t.robAt s.tail).op = op.code ∧ (t.robAt s.tail).dest = rd ∧
      (t.rsAt f).op = op.code ∧ (t.rsAt f).dest = s.tail ∧
      OperandAfter s j.fields (t.rsAt f).j ∧ OperandAfter s k.fields (t.rsAt f).k ∧
      (∀ vj vk, j = .val vj → k = .val vk →
        (t.rsAt f).occ = false ∧ (t.robAt s.tail).value = compute op vj vk ∧
        (s.count ≠ 0 → (t.robAt s.tail).inuse = true ∧ (t.robAt s.tail).ready = true) ∧
        (s.count = 0 → (t.robAt s.tail).inuse = false ∧ (t.robAt s.tail).ready = false ∧
          t.regAt rd = compute op vj vk)) ∧
      (∀ q, j = .tag q ∨ k = .tag q →
        (t.rsAt f).occ = true ∧ (t.robAt s.tail).inuse = true ∧ (t.robAt s.tail).ready = false ∧
          (t.robAt s.tail).value = (s.robAt s.tail).value)

/-- R103: with the reorder buffer full or every station occupied, nothing is allocated, whichever instruction
stands at pc: the cycle is that of HALT, and pc and tail stay. Otherwise an instruction that is not HALT
issues. Both tests read the start state. -/
def Obligations.StallAllocatesNothing : Prop :=
  ∀ (i : Instr) (s : State), s.CoreWF → i.wellFormed s.cfg.nregs = true →
    (s.count = s.cfg.robSize ∨ (∀ n, n < s.cfg.rsSize → (s.rsAt n).occ = true) →
      issuePhase i s = s ∧ ∃ t, exec i s = .next t ∧ exec .halt s = .next t ∧ t.pc = s.pc ∧ t.tail = s.tail) ∧
    (¬(s.count = s.cfg.robSize ∨ (∀ n, n < s.cfg.rsSize → (s.rsAt n).occ = true)) → i ≠ .halt →
      ∃ t, exec i s = .next t ∧ t.pc = s.pc + 1 ∧ t.tail = (s.tail + 1) % s.cfg.robSize)

/-- R165: HALT completes in every state a cycle accepts: Issue changes nothing, the other phases run, and one
in-flight instruction, if there is one, commits (R198). -/
def Obligations.HaltRunsTheOtherPhases : Prop :=
  ∀ s : State, s.CoreWF →
    ∃ t, exec .halt s = .next t ∧ t = cycleInc (commit (broadcast (execute s))) ∧ t.pc = s.pc ∧
      t.tail = s.tail ∧ t.count = s.count - 1

/-- R106, R107, R108, R109, R160: the entry at the tail is free, and the state Issue leaves, s1, in full. -/
def Obligations.IssuePhaseInFull : Prop :=
  ∀ (i : Instr) (s : State) (op : OpKind) (rd : RegIdx) (j k : Operand) (f : Nat),
    s.CoreWF → kindOf i = some op → destOf i = some rd → operandsOf i s = some (j, k) →
    s.count ≠ s.cfg.robSize → f < s.cfg.rsSize → (s.rsAt f).occ = false →
    (∀ n, n < f → (s.rsAt n).occ = true) →
    (s.robAt s.tail).inuse = false ∧ s.age s.tail = s.count ∧
    issuePhase i s =
      { s with
        rob := s.rob.set s.tail { s.robAt s.tail with op := op.code, dest := rd, ready := false, inuse := true }
        tail := (s.tail + 1) % s.cfg.robSize
        count := s.count + 1
        rs := s.rs.set f { op := op.code, j := j.fields, k := k.fields, dest := s.tail, occ := true }
        pc := s.pc + 1 }

/-! ### The phases -/

/-- R104: the resolver answers the tag of the lowest-indexed in-use, unready entry with the register as
destination, and the committed value exactly when there is none. -/
def Obligations.ResolverTakesFirstMatch : Prop :=
  ∀ (s : State) (r : RegIdx), s.rob.length = s.cfg.robSize →
    (∀ k, resolve s r = .tag k ↔
      k < s.cfg.robSize ∧
      ((s.robAt k).inuse = true ∧ (s.robAt k).ready = false ∧ (s.robAt k).dest = r) ∧
      ∀ k', k' < k → ¬((s.robAt k').inuse = true ∧ (s.robAt k').ready = false ∧ (s.robAt k').dest = r)) ∧
    (∀ v, resolve s r = .val v ↔
      v = s.regAt r ∧
      ∀ k, k < s.cfg.robSize →
        ¬((s.robAt k).inuse = true ∧ (s.robAt k).ready = false ∧ (s.robAt k).dest = r))

/-- R114: a tag the resolver gives names an in-use, unready entry strictly older than the entry at the tail, and
so W6 holds in s1. -/
def Obligations.NewTagsNameOlderProducers : Prop :=
  (∀ (s : State) (r : RegIdx) (q : Nat), s.CoreWF → s.count < s.cfg.robSize → resolve s r = .tag q →
    q < s.cfg.robSize ∧ (s.robAt q).inuse = true ∧ (s.robAt q).ready = false ∧ s.age q < s.count ∧
      s.age s.tail = s.count) ∧
  (∀ (s : State) (i : Instr), s.CoreWF → i.wellFormed s.cfg.nregs = true → (issuePhase i s).W6)

/-- R121, R122: each eligible station writes its entry's value and ready flag and frees itself; no other entry,
no other station and no other state changes. Stated of every state that meets the clauses that hold
after Issue (R195). -/
def Obligations.ExecuteEligibleStations : Prop :=
  ∀ s : State, s.PhaseWF →
    (∀ (n : Nat) (op : OpKind), n < s.cfg.rsSize → (s.rsAt n).occ = true → (s.rsAt n).j.qv = false →
      (s.rsAt n).k.qv = false → OpKind.ofCode (s.rsAt n).op = some op →
      (execute s).robAt (s.rsAt n).dest =
        { s.robAt (s.rsAt n).dest with value := compute op (s.rsAt n).j.v (s.rsAt n).k.v, ready := true } ∧
      (execute s).rsAt n = { s.rsAt n with occ := false }) ∧
    (∀ n, n < s.cfg.rsSize → ((s.rsAt n).occ = false ∨ (s.rsAt n).j.qv = true ∨ (s.rsAt n).k.qv = true) →
      (execute s).rsAt n = s.rsAt n) ∧
    (∀ k, k < s.cfg.robSize → (∀ n, n < s.cfg.rsSize → s.feeds n k = true → (s.rsAt n).eligible = false) →
      (execute s).robAt k = s.robAt k) ∧
    execute s = { s with rob := (execute s).rob, rs := (execute s).rs } ∧
    (execute s).rob.length = s.rob.length ∧ (execute s).rs.length = s.rs.length

/-- R131, R133: what Broadcast does to each operand of each station, and that it changes nothing else. -/
def Obligations.BroadcastResolvesTags : Prop :=
  ∀ s : State,
    broadcast s = { s with rs := (broadcast s).rs } ∧ (broadcast s).rs.length = s.rs.length ∧
    (∀ n, n < s.rs.length → (s.rsAt n).occ = false → (broadcast s).rsAt n = s.rsAt n) ∧
    (∀ n, n < s.rs.length → (s.rsAt n).occ = true → ∃ j k,
      (broadcast s).rsAt n = { s.rsAt n with j := j, k := k } ∧
      (∀ x x', (x, x') = ((s.rsAt n).j, j) ∨ (x, x') = ((s.rsAt n).k, k) →
        (x.qv = true → (s.robAt x.q).inuse = true → (s.robAt x.q).ready = true →
          x' = { v := (s.robAt x.q).value, qv := false, q := x.q }) ∧
        (x.qv = false ∨ (s.robAt x.q).inuse = false ∨ (s.robAt x.q).ready = false → x' = x)))

/-- R135: Commit retires the head entry if it is in use and ready, and else changes nothing. -/
def Obligations.CommitRetiresTheHead : Prop :=
  ∀ s : State,
    ((s.robAt s.head).inuse = true → (s.robAt s.head).ready = true →
      commit s =
        { s with
          rf := s.rf.set (s.robAt s.head).dest.toNat (s.robAt s.head).value
          rob := s.rob.set s.head { s.robAt s.head with inuse := false, ready := false }
          head := (s.head + 1) % s.cfg.robSize
          count := s.count - 1 }) ∧
    ((s.robAt s.head).inuse = false ∨ (s.robAt s.head).ready = false → commit s = s)

/-- R139: when Commit frees the head, no occupied station still holds its tag. -/
def Obligations.NoTagToTheRetiredHead : Prop :=
  ∀ (i : Instr) (s s3 : State) (n : Nat), s.CoreWF → i.wellFormed s.cfg.nregs = true →
    s3 = broadcast (execute (issuePhase i s)) → (s3.robAt s3.head).inuse = true →
    (s3.robAt s3.head).ready = true → n < s.cfg.rsSize → (s3.rsAt n).occ = true →
    ¬((s3.rsAt n).j.qv = true ∧ (s3.rsAt n).j.q = s3.head) ∧
    ¬((s3.rsAt n).k.qv = true ∧ (s3.rsAt n).k.q = s3.head)

/-- R23: Commit is the only phase that writes the register file. -/
def Obligations.OnlyCommitWritesRegisters : Prop :=
  ∀ (i : Instr) (s : State),
    (issuePhase i s).rf = s.rf ∧ (execute s).rf = s.rf ∧ (broadcast s).rf = s.rf ∧ (cycleInc s).rf = s.rf

/-! ### What a cycle changes and what it leaves -/

/-- No cycle changes the parameters or any word of the instruction sequence (R10, R62). -/
def Obligations.InputsUnchanged : Prop :=
  ∀ (i : Instr) (s t : State), exec i s = .next t → t.cfg = s.cfg ∧ t.im = s.im

/-- The register frame, for every instruction: a cycle leaves every register but the one it commits (R136,
R198). -/
def Obligations.RegisterFrame : Prop :=
  ∀ (i : Instr) (s t : State), exec i s = .next t →
    t.rf.length = s.rf.length ∧ ∀ r : RegIdx, committedReg i s ≠ some r → t.regAt r = s.regAt r

/-- The register a cycle commits when something is in flight: the head's value if it was ready, else the value
its station computes in this very cycle (R135, R137). -/
def Obligations.HeadCommitsInTheCycleItExecutes : Prop :=
  ∀ (i : Instr) (s t : State), exec i s = .next t → s.count ≠ 0 →
    ((s.robAt s.head).ready = true → t.regAt (s.robAt s.head).dest = (s.robAt s.head).value) ∧
    ((s.robAt s.head).ready = false → ∀ n op, n < s.cfg.rsSize → s.feeds n s.head = true →
      OpKind.ofCode (s.rsAt n).op = some op →
      t.regAt (s.robAt s.head).dest = compute op (s.rsAt n).j.v (s.rsAt n).k.v)

/-- R136: only the head leaves the reorder buffer; an in-use entry that is not the head stays in use, ready or
not, and at most one register is written. -/
def Obligations.OnlyTheHeadCommits : Prop :=
  ∀ (i : Instr) (s t : State), exec i s = .next t →
    (∀ k, k < s.cfg.robSize → k ≠ s.head → (s.robAt k).inuse = true → (t.robAt k).inuse = true) ∧
    (t.rf = s.rf ∨ ∃ (r : RegIdx) (v : Word), committedReg i s = some r ∧ t.rf = s.rf.set r.toNat v)

/-- R125: an entry that is in use and ready is not written again before Commit retires it. -/
def Obligations.ReadyEntryKeptUntilRetired : Prop :=
  ∀ (i : Instr) (s t : State) (k : Nat), exec i s = .next t → k < s.cfg.robSize → (s.robAt k).inuse = true →
    (s.robAt k).ready = true →
    (k ≠ s.head → t.robAt k = s.robAt k) ∧
    (k = s.head → t.robAt k = { s.robAt k with inuse := false, ready := false })

/-- The reorder-buffer frame: op and dest change only where this cycle allocates; a free entry that is not
allocated and an unready entry whose station does not execute are unchanged (R34 to R38). -/
def Obligations.ReorderBufferFrame : Prop :=
  ∀ (i : Instr) (s t : State) (k : Nat), exec i s = .next t → k < s.cfg.robSize →
    (¬(issuesNow i s = true ∧ k = s.tail) →
      (t.robAt k).op = (s.robAt k).op ∧ (t.robAt k).dest = (s.robAt k).dest) ∧
    (¬(issuesNow i s = true ∧ k = s.tail) → (s.robAt k).inuse = false → t.robAt k = s.robAt k) ∧
    ((s.robAt k).inuse = true → (s.robAt k).ready = false →
      (∀ n, n < s.cfg.rsSize → s.feeds n k = true → (s.rsAt n).eligible = false) → t.robAt k = s.robAt k)

/-- R113 and the station frame: a free station that is not allocated is unchanged, an eligible one only frees
itself, and one that waits keeps its operation, destination and values, its tags becoming values only
through their producers. -/
def Obligations.OperandsStayCaptured : Prop :=
  ∀ (i : Instr) (s t : State) (n : Nat), exec i s = .next t → n < s.cfg.rsSize →
    ((s.rsAt n).occ = false → ¬(issuesNow i s = true ∧ s.freeStation = some n) → t.rsAt n = s.rsAt n) ∧
    ((s.rsAt n).eligible = true → t.rsAt n = { s.rsAt n with occ := false }) ∧
    ((s.rsAt n).occ = true → (s.rsAt n).eligible = false →
      (t.rsAt n).op = (s.rsAt n).op ∧ (t.rsAt n).dest = (s.rsAt n).dest ∧ (t.rsAt n).occ = true ∧
      OperandAfter s (s.rsAt n).j (t.rsAt n).j ∧ OperandAfter s (s.rsAt n).k (t.rsAt n).k)

/-- R28, R29, R25, R30: who moves the window and the pc, and by how much. -/
def Obligations.SchedulerRegistersMove : Prop :=
  ∀ (i : Instr) (s t : State), exec i s = .next t →
    t.tail = (if issuesNow i s then (s.tail + 1) % s.cfg.robSize else s.tail) ∧
    t.pc = (if issuesNow i s then s.pc + 1 else s.pc) ∧
    t.head = (if s.count = 0 ∧ issuesNow i s = false then s.head else (s.head + 1) % s.cfg.robSize)

/-- R138: CycleInc changes the cycle number alone, by one modulo 2^32, and every cycle of every instruction
does so. -/
def Obligations.EveryCycleCounts : Prop :=
  (∀ s : State, cycleInc s = { s with cycle := BitVec.ofNat 32 ((s.cycle.toNat + 1) % 2 ^ 32) }) ∧
  ∀ (i : Instr) (s t : State), exec i s = .next t → t.cycle.toNat = (s.cycle.toNat + 1) % 2 ^ 32

/-! ### The step -/

/-- R85: a step in a well-formed state whose word at pc decodes is exec of that instruction, and that is the
chain of the four phases and the counter update. -/
def Obligations.StepRunsTheDecodedInstruction : Prop :=
  ∀ (s : State) (w : Diw) (i : Instr), s.WF → s.im[s.pc.toNat]? = some w → decode s.cfg.nregs w = .ok i →
    step s = exec i s ∧ step s = .next (cycleInc (commit (broadcast (execute (issuePhase i s)))))

/-- R96, R124: a step of a well-formed state completes exactly when the word at pc decodes. -/
def Obligations.StepCompletesOnWellFormedStates : Prop :=
  ∀ s : State, s.WF →
    ((∃ t, step s = .next t) ↔ ∃ w i, s.im[s.pc.toNat]? = some w ∧ decode s.cfg.nregs w = .ok i)

/-- R174: in a well-formed state a word that decodes as Invalid is refused with its reason, whether or not
Issue would stall (R101). -/
def Obligations.InvalidWordsRefused : Prop :=
  ∀ (s : State) (w : Diw), s.WF → s.im[s.pc.toNat]? = some w →
    (opField w = 6 ∨ opField w = 7 → step s = .refused .unknownOperation) ∧
    ((opField w).toNat ≤ 3 →
      (s.cfg.nregs ≤ (rdField w).toNat ∨ s.cfg.nregs ≤ (rjField w).toNat ∨ s.cfg.nregs ≤ (rkField w).toNat) →
      step s = .refused .registerOutOfRange) ∧
    (opField w = 4 → s.cfg.nregs ≤ (rdField w).toNat → step s = .refused .registerOutOfRange)

/-- R175, for a state that meets every clause but W9: the model tries the other clauses first (log 6). -/
def Obligations.NoHaltAheadRefused : Prop :=
  ∀ s : State, s.CoreWF →
    (s.im.length ≤ s.pc.toNat ∨
      ∀ (a : Nat) (w : Diw), s.pc.toNat ≤ a → s.im[a]? = some w → opField w ≠ 5) →
    step s = .refused .noHaltInSequence

/-- R176, for the clauses W1 to W8 and the representation of a hardware state (log 6, log 8, log 9): such a
state is refused by every step and by every instruction. -/
def Obligations.IllFormedStatesRefused : Prop :=
  ∀ s : State, ¬ s.CoreWF →
    step s = .refused .illFormedState ∧ ∀ i : Instr, exec i s = .refused .illFormedState

/-- R176 for a run: one from a state that is not well formed is refused before the first stop test, whatever the
cap and however many steps are asked for, and so is the first step of the host's run; under the name
noHaltInSequence where W9 alone fails (R175, U3). The order of the names is log 6 and log 8. -/
def Obligations.IllFormedStartsRefuseTheRun : Prop :=
  ∀ (s : State) (maxCycles n : Nat),
    (¬ s.CoreWF → driverRun maxCycles n s = .refused .illFormedState ∧
      Host.Core.run Sys2Proof.core (n + 1) s = .refused Refusal.illFormedState) ∧
    (s.CoreWF → ¬ s.W9 → driverRun maxCycles n s = .refused .noHaltInSequence ∧
      Host.Core.run Sys2Proof.core (n + 1) s = .refused Refusal.noHaltInSequence) ∧
    (s.WF → ∀ why, driverRun maxCycles 0 s ≠ .refused why)

/-- R26, R27: as numbers, so that no wrap is hidden: the pc advances by one when the step issues, stays on a
stall and on HALT, and never reaches PROG_CAP. -/
def Obligations.PcNeverWraps : Prop :=
  ∀ (s t : State), step s = .next t →
    ∃ w i, s.im[s.pc.toNat]? = some w ∧ decode s.cfg.nregs w = .ok i ∧
      t.pc.toNat = s.pc.toNat + (if issuesNow i s then 1 else 0) ∧ t.pc.toNat < s.im.length

/-- R165 (U15): the words after the first HALT at or after pc have no effect: a machine that differs only in
them, whatever their number, steps to the same state but for them. -/
def Obligations.WordsAfterHaltIgnored : Prop :=
  ∀ (s t : State) (h : Nat) (im' : List Diw), step s = .next t → s.pc.toNat ≤ h →
    isHaltWord (s.im.getD h 0) = true → h < s.im.length → im'.take (h + 1) = s.im.take (h + 1) →
    im'.length ≤ 2 ^ 32 →
    step { s with im := im' } = .next { t with im := im' }

/-! ### Ports -/

/-- R88, R89: the two queries of the driver. -/
def Obligations.DriverQueries : Prop :=
  ∀ s : State,
    (∀ w, s.im[s.pc.toNat]? = some w → s.haltNext = some (decide (w.toNat / 2 ^ 61 = 5))) ∧
    (s.robEmpty = true ↔ s.count = 0)

/-- R90: reset first, whatever `step_en` is; then a step; else nothing changes. That the reset keeps the
parameters and the sequence is the model's reading of R10, R47 and R190 (log 21, DEDUCED). -/
def Obligations.ClockEdge : Prop :=
  ∀ s : State,
    (∀ en, clockEdge true en s = .next (State.resetWith s.cfg s.im)) ∧
    clockEdge false true s = step s ∧ clockEdge false false s = .next s

/-! ### Reset and invariants -/

/-- R45: every reset value, for every parameter choice and sequence. -/
def Obligations.ResetValues : Prop :=
  ∀ (p : Params) (im : List Diw), p.Ok →
    (∀ r : RegIdx, r.toNat < p.nregs → p.rfInit[r.toNat]? = some ((State.resetWith p im).regAt r)) ∧
    (State.resetWith p im).rf.length = p.nregs ∧
    (State.resetWith p im).pc = 0 ∧ (State.resetWith p im).head = 0 ∧ (State.resetWith p im).tail = 0 ∧
    (State.resetWith p im).count = 0 ∧ (State.resetWith p im).cycle = 0 ∧
    (State.resetWith p im).rob.length = p.robSize ∧ (State.resetWith p im).rs.length = p.rsSize ∧
    (∀ e ∈ (State.resetWith p im).rob,
      e.op = 0 ∧ e.dest = 0 ∧ e.value = 0 ∧ e.ready = false ∧ e.inuse = false) ∧
    (∀ st ∈ (State.resetWith p im).rs,
      st.op = 0 ∧ st.j.v = 0 ∧ st.j.qv = false ∧ st.j.q = 0 ∧ st.k.v = 0 ∧ st.k.qv = false ∧ st.k.q = 0 ∧
        st.dest = 0 ∧ st.occ = false)

/-- State.reset, in the reference configuration, meets every clause of WF that does not speak of the sequence,
which no loader has supplied yet (R45; the configuration and the empty sequence are log 3 and log 5). -/
def Obligations.ReferenceResetWellFormed : Prop := State.reset.CoreWF

/-- The reset state is well formed whenever the loader's precondition holds, for every parameter choice (R44,
R45, R93). -/
def Obligations.LoadedResetWellFormed : Prop :=
  ∀ (p : Params) (im : List Diw), p.Ok → LoaderOk p.nregs im → (State.resetWith p im).WF

/-- Every step keeps WF (R195, R44). -/
def Obligations.StepKeepsWellFormed : Prop :=
  ∀ (s t : State), s.WF → step s = .next t → t.WF

/-- R195: the clauses W1 to W5, W7 and W8 hold after each phase of a cycle. -/
def Obligations.PhasesKeepTheirClauses : Prop :=
  ∀ (i : Instr) (s s1 s2 s3 s4 : State), s.CoreWF → i.wellFormed s.cfg.nregs = true → s1 = issuePhase i s →
    s2 = execute s1 → s3 = broadcast s2 → s4 = commit s3 →
    s1.PhaseWF ∧ s2.PhaseWF ∧ s3.PhaseWF ∧ s4.PhaseWF

/-! ### Whole-machine rules -/

/-- R198: the head's station never holds a tag, a commit occurs exactly when the reorder buffer is not empty
after Issue, and the count changes accordingly. -/
def Obligations.CountLaw : Prop :=
  ∀ (i : Instr) (s t s3 : State) (c : Nat), exec i s = .next t → c = (if issuesNow i s then 1 else 0) →
    s3 = broadcast (execute (issuePhase i s)) →
    (∀ n, n < s.cfg.rsSize → s.feeds n s.head = true → (s.rsAt n).j.qv = false ∧ (s.rsAt n).k.qv = false) ∧
    ((s3.robAt s3.head).done = true ↔ s.count + c > 0) ∧
    t.count = s.count + c - 1

/-- R199: from a well-formed state whose pc is on a HALT, each step commits one entry and the pc stays, so the
reorder buffer is empty after exactly `count` steps. -/
def Obligations.HaltDrainsTheRob : Prop :=
  ∀ (s : State) (n : Nat), s.WF → s.haltNext = some true → n ≤ s.count →
    ∃ t : State, Host.Core.run Sys2Proof.core n s = .next t ∧ t.count = s.count - n ∧ t.pc = s.pc ∧
      t.haltNext = some true ∧ t.WF

/-- R199: the count never increases from one cycle boundary to the next, and Commit never finds an in-use head
that is not ready. -/
def Obligations.CountNeverIncreases : Prop :=
  ∀ (i : Instr) (s t s3 : State), exec i s = .next t → s3 = broadcast (execute (issuePhase i s)) →
    t.count ≤ s.count ∧ ((s3.robAt s3.head).inuse = true → (s3.robAt s3.head).ready = true)

/-- R196, of every well-formed state with an empty reorder buffer, reached from reset or not: every station is
free, Issue does not stall, every register resolves to its committed value, and a step leaves the
reorder buffer empty. -/
def Obligations.EmptyRobStaysEmpty : Prop :=
  ∀ s : State, s.CoreWF → s.count = 0 →
    s.tail = s.head ∧ (∀ n, n < s.cfg.rsSize → (s.rsAt n).occ = false) ∧ s.stalls = false ∧
    (∀ r, resolve s r = .val (s.regAt r)) ∧ ∀ t, step s = .next t → t.count = 0

/-- R94: a step from a drained HALT changes only the cycle number. -/
def Obligations.DrainedHaltChangesOnlyCycle : Prop :=
  ∀ s : State, s.WF → s.haltNext = some true → s.robEmpty = true →
    step s = .next { s with cycle := s.cycle + 1 }

/-- From every well-formed state with an empty reorder buffer, the core runs the instructions up to the first
HALT as the sequential machine does, one a cycle (R197). -/
def Obligations.SequentialFromEmptyRob : Prop :=
  ∀ (s : State) (is : List Instr), s.WF → s.count = 0 →
    programOf s.cfg.nregs (s.im.drop s.pc.toNat) = some is →
    ∃ t : State, Host.Core.run Sys2Proof.core is.length s = .next t ∧ t.rf = seqRun is s.rf ∧
      t.pc.toNat = s.pc.toNat + is.length ∧ t.cycle = s.cycle + BitVec.ofNat 32 is.length ∧ t.count = 0 ∧
      t.haltNext = some true

/-- R197: from reset, with a sequence that meets the loader's precondition, after k cycles the registers are
those of the first k instructions run in order, and the driver's run ends by condition (a) after exactly
n cycles, n the index of the first HALT. With a cap of exactly n both conditions of R92 hold at the end, and
that the run is then called complete is the model's choice (log 12, DESIGN CHOICE). -/
def Obligations.SequentialFromReset : Prop :=
  ∀ (p : Params) (im : List Diw) (is : List Instr) (maxCycles : Nat), p.Ok → im.length ≤ 2 ^ 32 →
    programOf p.nregs im = some is → is.length ≤ maxCycles →
    (∀ k, k ≤ is.length →
      ∃ t : State, Host.Core.run Sys2Proof.core k (State.resetWith p im) = .next t ∧
        t.rf = seqRun (is.take k) p.rfInit ∧ t.pc.toNat = k ∧ t.cycle.toNat = k) ∧
    ∃ t : State, Host.Core.run Sys2Proof.core is.length (State.resetWith p im) = .next t ∧
      driverRun maxCycles is.length (State.resetWith p im) = .complete t ∧
      t.rf = seqRun is p.rfInit ∧ t.pc.toNat = is.length ∧ t.cycle.toNat = is.length
end

