-- ==== Sys2Proof/Laws/State.lean ====
section
/-! SUPPORT. One lemma for each field of State under each update and each phase that is a plain record update,
true by rfl, so that no later proof unfolds one; and reading an entry, a station or a register after a
write. -/

namespace Sys2Proof.Machine

/-! ### writeReg -/

@[simp] theorem writeReg_cfg (s : State) (r : RegIdx) (v : Word) : (s.writeReg r v).cfg = s.cfg := rfl
@[simp] theorem writeReg_im (s : State) (r : RegIdx) (v : Word) : (s.writeReg r v).im = s.im := rfl
@[simp] theorem writeReg_rf (s : State) (r : RegIdx) (v : Word) : (s.writeReg r v).rf = s.rf.set r.toNat v := rfl
@[simp] theorem writeReg_pc (s : State) (r : RegIdx) (v : Word) : (s.writeReg r v).pc = s.pc := rfl
@[simp] theorem writeReg_head (s : State) (r : RegIdx) (v : Word) : (s.writeReg r v).head = s.head := rfl
@[simp] theorem writeReg_tail (s : State) (r : RegIdx) (v : Word) : (s.writeReg r v).tail = s.tail := rfl
@[simp] theorem writeReg_count (s : State) (r : RegIdx) (v : Word) : (s.writeReg r v).count = s.count := rfl
@[simp] theorem writeReg_cycle (s : State) (r : RegIdx) (v : Word) : (s.writeReg r v).cycle = s.cycle := rfl
@[simp] theorem writeReg_rob (s : State) (r : RegIdx) (v : Word) : (s.writeReg r v).rob = s.rob := rfl
@[simp] theorem writeReg_rs (s : State) (r : RegIdx) (v : Word) : (s.writeReg r v).rs = s.rs := rfl

/-! ### setRob -/

@[simp] theorem setRob_cfg (s : State) (k : Nat) (e : RobEntry) : (s.setRob k e).cfg = s.cfg := rfl
@[simp] theorem setRob_im (s : State) (k : Nat) (e : RobEntry) : (s.setRob k e).im = s.im := rfl
@[simp] theorem setRob_rf (s : State) (k : Nat) (e : RobEntry) : (s.setRob k e).rf = s.rf := rfl
@[simp] theorem setRob_pc (s : State) (k : Nat) (e : RobEntry) : (s.setRob k e).pc = s.pc := rfl
@[simp] theorem setRob_head (s : State) (k : Nat) (e : RobEntry) : (s.setRob k e).head = s.head := rfl
@[simp] theorem setRob_tail (s : State) (k : Nat) (e : RobEntry) : (s.setRob k e).tail = s.tail := rfl
@[simp] theorem setRob_count (s : State) (k : Nat) (e : RobEntry) : (s.setRob k e).count = s.count := rfl
@[simp] theorem setRob_cycle (s : State) (k : Nat) (e : RobEntry) : (s.setRob k e).cycle = s.cycle := rfl
@[simp] theorem setRob_rob (s : State) (k : Nat) (e : RobEntry) : (s.setRob k e).rob = s.rob.set k e := rfl
@[simp] theorem setRob_rs (s : State) (k : Nat) (e : RobEntry) : (s.setRob k e).rs = s.rs := rfl

/-! ### setRs -/

@[simp] theorem setRs_cfg (s : State) (i : Nat) (st : Station) : (s.setRs i st).cfg = s.cfg := rfl
@[simp] theorem setRs_im (s : State) (i : Nat) (st : Station) : (s.setRs i st).im = s.im := rfl
@[simp] theorem setRs_rf (s : State) (i : Nat) (st : Station) : (s.setRs i st).rf = s.rf := rfl
@[simp] theorem setRs_pc (s : State) (i : Nat) (st : Station) : (s.setRs i st).pc = s.pc := rfl
@[simp] theorem setRs_head (s : State) (i : Nat) (st : Station) : (s.setRs i st).head = s.head := rfl
@[simp] theorem setRs_tail (s : State) (i : Nat) (st : Station) : (s.setRs i st).tail = s.tail := rfl
@[simp] theorem setRs_count (s : State) (i : Nat) (st : Station) : (s.setRs i st).count = s.count := rfl
@[simp] theorem setRs_cycle (s : State) (i : Nat) (st : Station) : (s.setRs i st).cycle = s.cycle := rfl
@[simp] theorem setRs_rob (s : State) (i : Nat) (st : Station) : (s.setRs i st).rob = s.rob := rfl
@[simp] theorem setRs_rs (s : State) (i : Nat) (st : Station) : (s.setRs i st).rs = s.rs.set i st := rfl

/-! ### advancePc -/

@[simp] theorem advancePc_cfg (s : State) : (s.advancePc).cfg = s.cfg := rfl
@[simp] theorem advancePc_im (s : State) : (s.advancePc).im = s.im := rfl
@[simp] theorem advancePc_rf (s : State) : (s.advancePc).rf = s.rf := rfl
@[simp] theorem advancePc_pc (s : State) : (s.advancePc).pc = s.pc + 1 := rfl
@[simp] theorem advancePc_head (s : State) : (s.advancePc).head = s.head := rfl
@[simp] theorem advancePc_tail (s : State) : (s.advancePc).tail = s.tail := rfl
@[simp] theorem advancePc_count (s : State) : (s.advancePc).count = s.count := rfl
@[simp] theorem advancePc_cycle (s : State) : (s.advancePc).cycle = s.cycle := rfl
@[simp] theorem advancePc_rob (s : State) : (s.advancePc).rob = s.rob := rfl
@[simp] theorem advancePc_rs (s : State) : (s.advancePc).rs = s.rs := rfl

/-! ### pushTail -/

@[simp] theorem pushTail_cfg (s : State) : (s.pushTail).cfg = s.cfg := rfl
@[simp] theorem pushTail_im (s : State) : (s.pushTail).im = s.im := rfl
@[simp] theorem pushTail_rf (s : State) : (s.pushTail).rf = s.rf := rfl
@[simp] theorem pushTail_pc (s : State) : (s.pushTail).pc = s.pc := rfl
@[simp] theorem pushTail_head (s : State) : (s.pushTail).head = s.head := rfl
@[simp] theorem pushTail_tail (s : State) : (s.pushTail).tail = (s.tail + 1) % s.cfg.robSize := rfl
@[simp] theorem pushTail_count (s : State) : (s.pushTail).count = s.count + 1 := rfl
@[simp] theorem pushTail_cycle (s : State) : (s.pushTail).cycle = s.cycle := rfl
@[simp] theorem pushTail_rob (s : State) : (s.pushTail).rob = s.rob := rfl
@[simp] theorem pushTail_rs (s : State) : (s.pushTail).rs = s.rs := rfl

/-! ### popHead -/

@[simp] theorem popHead_cfg (s : State) : (s.popHead).cfg = s.cfg := rfl
@[simp] theorem popHead_im (s : State) : (s.popHead).im = s.im := rfl
@[simp] theorem popHead_rf (s : State) : (s.popHead).rf = s.rf := rfl
@[simp] theorem popHead_pc (s : State) : (s.popHead).pc = s.pc := rfl
@[simp] theorem popHead_head (s : State) : (s.popHead).head = (s.head + 1) % s.cfg.robSize := rfl
@[simp] theorem popHead_tail (s : State) : (s.popHead).tail = s.tail := rfl
@[simp] theorem popHead_count (s : State) : (s.popHead).count = s.count - 1 := rfl
@[simp] theorem popHead_cycle (s : State) : (s.popHead).cycle = s.cycle := rfl
@[simp] theorem popHead_rob (s : State) : (s.popHead).rob = s.rob := rfl
@[simp] theorem popHead_rs (s : State) : (s.popHead).rs = s.rs := rfl

/-! ### execute -/

@[simp] theorem execute_cfg (s : State) : (execute s).cfg = s.cfg := rfl
@[simp] theorem execute_im (s : State) : (execute s).im = s.im := rfl
@[simp] theorem execute_rf (s : State) : (execute s).rf = s.rf := rfl
@[simp] theorem execute_pc (s : State) : (execute s).pc = s.pc := rfl
@[simp] theorem execute_head (s : State) : (execute s).head = s.head := rfl
@[simp] theorem execute_tail (s : State) : (execute s).tail = s.tail := rfl
@[simp] theorem execute_count (s : State) : (execute s).count = s.count := rfl
@[simp] theorem execute_cycle (s : State) : (execute s).cycle = s.cycle := rfl
@[simp] theorem execute_rob (s : State) : (execute s).rob = s.rob.mapIdx (fun k e => s.executeEntry k e) := rfl
@[simp] theorem execute_rs (s : State) : (execute s).rs = s.rs.map Station.execute := rfl

/-! ### broadcast -/

@[simp] theorem broadcast_cfg (s : State) : (broadcast s).cfg = s.cfg := rfl
@[simp] theorem broadcast_im (s : State) : (broadcast s).im = s.im := rfl
@[simp] theorem broadcast_rf (s : State) : (broadcast s).rf = s.rf := rfl
@[simp] theorem broadcast_pc (s : State) : (broadcast s).pc = s.pc := rfl
@[simp] theorem broadcast_head (s : State) : (broadcast s).head = s.head := rfl
@[simp] theorem broadcast_tail (s : State) : (broadcast s).tail = s.tail := rfl
@[simp] theorem broadcast_count (s : State) : (broadcast s).count = s.count := rfl
@[simp] theorem broadcast_cycle (s : State) : (broadcast s).cycle = s.cycle := rfl
@[simp] theorem broadcast_rob (s : State) : (broadcast s).rob = s.rob := rfl
@[simp] theorem broadcast_rs (s : State) : (broadcast s).rs = s.rs.map s.hearStation := rfl

/-! ### cycleInc -/

@[simp] theorem cycleInc_cfg (s : State) : (cycleInc s).cfg = s.cfg := rfl
@[simp] theorem cycleInc_im (s : State) : (cycleInc s).im = s.im := rfl
@[simp] theorem cycleInc_rf (s : State) : (cycleInc s).rf = s.rf := rfl
@[simp] theorem cycleInc_pc (s : State) : (cycleInc s).pc = s.pc := rfl
@[simp] theorem cycleInc_head (s : State) : (cycleInc s).head = s.head := rfl
@[simp] theorem cycleInc_tail (s : State) : (cycleInc s).tail = s.tail := rfl
@[simp] theorem cycleInc_count (s : State) : (cycleInc s).count = s.count := rfl
@[simp] theorem cycleInc_cycle (s : State) : (cycleInc s).cycle = s.cycle + 1 := rfl
@[simp] theorem cycleInc_rob (s : State) : (cycleInc s).rob = s.rob := rfl
@[simp] theorem cycleInc_rs (s : State) : (cycleInc s).rs = s.rs := rfl

/-! ### Reading after writing -/

theorem getD_set_self {α : Type} (l : List α) (k : Nat) (x d : α) (h : k < l.length) : (l.set k x).getD k d = x := by
  simp [List.getD_eq_getElem?_getD, h]

theorem getD_set_ne {α : Type} (l : List α) (k n : Nat) (x d : α) (h : k ≠ n) : (l.set k x).getD n d = l.getD n d := by
  simp [List.getD_eq_getElem?_getD, List.getElem?_set_ne h]

theorem robAt_setRob_self (s : State) (k : Nat) (e : RobEntry) (h : k < s.rob.length) : (s.setRob k e).robAt k = e :=
  getD_set_self _ _ _ _ h

theorem robAt_setRob_ne (s : State) (k n : Nat) (e : RobEntry) (h : k ≠ n) : (s.setRob k e).robAt n = s.robAt n :=
  getD_set_ne _ _ _ _ _ h

theorem rsAt_setRs_self (s : State) (i : Nat) (st : Station) (h : i < s.rs.length) : (s.setRs i st).rsAt i = st :=
  getD_set_self _ _ _ _ h

theorem rsAt_setRs_ne (s : State) (i n : Nat) (st : Station) (h : i ≠ n) : (s.setRs i st).rsAt n = s.rsAt n :=
  getD_set_ne _ _ _ _ _ h

theorem regAt_writeReg_self (s : State) (r : RegIdx) (v : Word) (h : r.toNat < s.rf.length) :
    (s.writeReg r v).regAt r = v :=
  getD_set_self _ _ _ _ h

theorem regAt_writeReg_ne (s : State) (r q : RegIdx) (v : Word) (h : r ≠ q) : (s.writeReg r v).regAt q = s.regAt q :=
  getD_set_ne _ _ _ _ _ (fun e => h (BitVec.eq_of_toNat_eq e))

/-- Reading an entry depends on the reorder buffer alone. -/
theorem robAt_congr {s t : State} (h : t.rob = s.rob) (k : Nat) : t.robAt k = s.robAt k := by
  simp [State.robAt, h]

/-- Reading a station depends on the pool alone. -/
theorem rsAt_congr {s t : State} (h : t.rs = s.rs) (i : Nat) : t.rsAt i = s.rsAt i := by
  simp [State.rsAt, h]

/-- An entry's age depends on the head and ROB_SIZE alone. -/
theorem age_congr {s t : State} (hc : t.cfg = s.cfg) (hh : t.head = s.head) (k : Nat) : t.age k = s.age k := by
  simp [State.age, hc, hh]

end Sys2Proof.Machine
end

