-- ==== Sys2Proof/Laws/Ops.lean ====
section
/-! SUPPORT. For each shared operation, one lemma that says what it can do; the proofs cite these and do not
unfold the operations. -/

namespace Sys2Proof.Machine

/-! ### The checks -/

theorem coreOk_iff (s : State) : s.coreOk = true ↔ s.CoreWF := by
  simp only [State.coreOk, Bool.and_eq_true, decide_eq_true_eq, and_assoc]

theorem haltAhead_iff (s : State) : s.haltAhead = true ↔ s.W9 := by
  simp only [State.haltAhead, List.any_eq_true, State.W9]
  constructor
  · rintro ⟨w, hw, hh⟩
    obtain ⟨n, hn, rfl⟩ := List.getElem_of_mem hw
    rw [List.length_drop] at hn
    rw [List.getElem_drop] at hh
    exact ⟨by omega, s.pc.toNat + n, by omega, by omega, by
      rw [List.getD_eq_getElem?_getD, List.getElem?_eq_getElem (by omega)]; exact hh⟩
  · rintro ⟨hp, a, ha, hpa, hh⟩
    rw [List.getD_eq_getElem?_getD, List.getElem?_eq_getElem ha] at hh
    have hd : a - s.pc.toNat < (s.im.drop s.pc.toNat).length := by rw [List.length_drop]; omega
    refine ⟨(s.im.drop s.pc.toNat)[a - s.pc.toNat], List.getElem_mem hd, ?_⟩
    rw [List.getElem_drop]
    simpa [show s.pc.toNat + (a - s.pc.toNat) = a by omega] using hh

/-- Everything `startRefusal` can answer. -/
theorem startRefusal_eq_none_iff (s : State) : s.startRefusal = none ↔ s.WF := by
  rw [State.WF, ← coreOk_iff, ← haltAhead_iff, State.startRefusal]
  cases s.coreOk <;> cases s.haltAhead <;> simp

/-- A state that breaks W1 to W8 or is no hardware state is refused as illFormedState. -/
theorem startRefusal_eq_illFormed_iff (s : State) : s.startRefusal = some .illFormedState ↔ ¬ s.CoreWF := by
  rw [← coreOk_iff, State.startRefusal]
  cases s.coreOk <;> cases s.haltAhead <;> simp

/-- A state that breaks W9 alone is refused as noHaltInSequence. -/
theorem startRefusal_eq_noHalt_iff (s : State) :
    s.startRefusal = some .noHaltInSequence ↔ s.CoreWF ∧ ¬ s.W9 := by
  rw [← coreOk_iff, ← haltAhead_iff, State.startRefusal]
  cases s.coreOk <;> cases s.haltAhead <;> simp

theorem regsInRange_iff (n : Nat) (rs : List RegIdx) : regsInRange n rs = true ↔ ∀ r ∈ rs, r.toNat < n := by
  simp [regsInRange]

/-! ### Placing a word -/

/-- The placed word stands at its index. -/
theorem placeWord_at (im : List Diw) (a : Nat) (w : Diw) : (placeWord im a w)[a]? = some w := by
  unfold placeWord
  have h : a < ((im ++ List.replicate (a + 1 - im.length) haltWord).set a w).length := by simp; omega
  rw [List.getElem?_append_left h]
  rw [List.length_set] at h
  exact List.getElem?_set_self h

/-- A HALT stands after the placed word. -/
theorem placeWord_halt (im : List Diw) (a : Nat) (w : Diw) :
    ∃ b, a < b ∧ (placeWord im a w)[b]? = some haltWord := by
  refine ⟨((im ++ List.replicate (a + 1 - im.length) haltWord).set a w).length, by simp; omega, ?_⟩
  simp [placeWord]

/-! ### The cycle -/

/-- Everything `runCycle` can answer. -/
theorem runCycle_next_iff (regs : List RegIdx) (iss : State → State) (s t : State) :
    runCycle regs iss s = .next t ↔
      s.CoreWF ∧ regsInRange s.cfg.nregs regs = true ∧ t = finishCycle (iss s) := by
  rw [← coreOk_iff, runCycle]
  cases s.coreOk <;> cases regsInRange s.cfg.nregs regs <;> simp [eq_comm]

/-- An instruction answers a next state exactly when the state is well formed for a cycle and its registers
exist; the next state is the rest of the cycle run on its Issue phase. -/
theorem exec_next_iff (i : Instr) (s t : State) :
    exec i s = .next t ↔
      s.CoreWF ∧ i.wellFormed s.cfg.nregs = true ∧ t = finishCycle (issuePhase i s) := by
  cases i <;> exact runCycle_next_iff _ _ _ _

/-- Everything `fetch` can answer with an instruction. -/
theorem fetch_instr_iff (s : State) (i : Instr) :
    fetch s = .instr i ↔
      s.CoreWF ∧ s.W9 ∧ ∃ w, s.imRead s.pc.toNat = some w ∧ decode s.cfg.nregs w = .ok i := by
  rw [← and_assoc, ← State.WF, ← startRefusal_eq_none_iff, fetch]
  cases s.startRefusal with
  | some why => simp
  | none =>
    cases hw : s.imRead s.pc.toNat with
    | none => simp
    | some w => cases hd : decode s.cfg.nregs w <;> simp [decodeFetched, hd]

/-- Everything a step can do. -/
theorem step_next_iff (s t : State) :
    step s = .next t ↔
      s.WF ∧ ∃ w i, s.imRead s.pc.toNat = some w ∧ decode s.cfg.nregs w = .ok i ∧
        i.wellFormed s.cfg.nregs = true ∧ t = finishCycle (issuePhase i s) := by
  simp only [step]
  cases hf : fetch s with
  | instr i =>
    obtain ⟨hc, h9, w, hw, hd⟩ := (fetch_instr_iff s i).mp hf
    simp only [exec_next_iff]
    constructor
    · rintro ⟨-, hi, ht⟩
      exact ⟨⟨hc, h9⟩, w, i, hw, hd, hi, ht⟩
    · rintro ⟨-, w', i', hw', hd', hi', ht⟩
      rw [hw] at hw'
      cases hw'
      rw [hd] at hd'
      cases hd'
      exact ⟨hc, hi', ht⟩
  | refused why =>
    simp only [reduceCtorEq, false_iff, not_and, not_exists]
    rintro ⟨hc, h9⟩ w i hw hd - -
    have := (fetch_instr_iff s i).mpr ⟨hc, h9, w, hw, hd⟩
    simp [hf] at this

/-- A decoded instruction uses only registers the file has. -/
theorem decode_ok_wellFormed {n : Nat} {w : Diw} {i : Instr} (h : decode n w = .ok i) : i.wellFormed n = true := by
  unfold decode checkRegs at h
  repeat' split at h
  all_goals simp_all
  all_goals subst h; first | assumption | rfl

/-! ### Issue -/

/-- Everything Issue can do with a non-HALT instruction: stall, or allocate at the tail and the lowest free
station. -/
theorem issue_cases (op : OpKind) (rd : RegIdx) (j k : Operand) (s : State) :
    (s.stalls = true ∧ issue op rd j k s = s) ∨
      (∃ f, s.stalls = false ∧ s.robFull = false ∧ s.freeStation = some f ∧
        issue op rd j k s = allocate op rd j k f s) := by
  unfold issue State.stalls
  cases hr : s.robFull <;> cases hf : s.freeStation <;> simp

/-- The station the allocator picks is free and no station below it is (R107). -/
theorem freeStation_eq_some {s : State} {f : Nat} (h : s.freeStation = some f) :
    f < s.rs.length ∧ (s.rsAt f).occ = false ∧ ∀ i, i < f → (s.rsAt i).occ = true := by
  rw [State.freeStation, List.findIdx?_eq_some_iff_getElem] at h
  obtain ⟨hf, hfree, hlow⟩ := h
  refine ⟨hf, ?_, fun i hi => ?_⟩
  · simpa [State.rsAt, List.getD_eq_getElem?_getD, hf] using hfree
  · have := hlow i hi
    simpa [State.rsAt, List.getD_eq_getElem?_getD, show i < s.rs.length by omega] using this

/-- No station is picked exactly when each is occupied. -/
theorem freeStation_eq_none {s : State} (h : s.freeStation = none) (i : Nat) (hi : i < s.rs.length) :
    (s.rsAt i).occ = true := by
  rw [State.freeStation, List.findIdx?_eq_none_iff] at h
  have := h s.rs[i] (List.getElem_mem hi)
  simpa [State.rsAt, List.getD_eq_getElem?_getD, hi] using this

/-- The stall test, as R103 words it. -/
theorem stalls_iff (s : State) (h : s.rs.length = s.cfg.rsSize) :
    s.stalls = true ↔ s.count = s.cfg.robSize ∨ ∀ i, i < s.cfg.rsSize → (s.rsAt i).occ = true := by
  unfold State.stalls State.robFull
  cases hf : s.freeStation with
  | none =>
    have := freeStation_eq_none hf
    simp only [Option.isNone_none, Bool.or_true, true_iff]
    exact .inr (fun i hi => this i (by omega))
  | some f =>
    obtain ⟨hl, hfree, -⟩ := freeStation_eq_some hf
    simp only [Option.isNone_some, Bool.or_false, beq_iff_eq]
    exact ⟨.inl, fun h' => h'.elim id (fun h' => by simp [h' f (by omega)] at hfree)⟩

/-- Everything Issue can do, whichever instruction stands at pc. -/
theorem issuePhase_cases (i : Instr) (s : State) :
    (issuesNow i s = false ∧ issuePhase i s = s) ∨
      (∃ op rd j k f, issuesNow i s = true ∧ kindOf i = some op ∧ destOf i = some rd ∧ s.robFull = false ∧
        s.freeStation = some f ∧ issuePhase i s = allocate op rd j k f s ∧
        ((∃ rj rk, j = resolve s rj ∧ k = resolve s rk ∧ op ≠ .loadImm) ∨
          (∃ imm, j = .val imm ∧ k = .val 0 ∧ op = .loadImm))) := by
  cases i with
  | add rd rj rk =>
    rcases issue_cases .add rd (resolve s rj) (resolve s rk) s with ⟨h, e⟩ | ⟨f, h, hr, hf, e⟩
    · exact .inl ⟨by simp [issuesNow, h], e⟩
    · exact .inr ⟨.add, rd, _, _, f, by simp [issuesNow, kindOf, h], rfl, rfl, hr, hf, e, .inl ⟨rj, rk, rfl, rfl, by simp⟩⟩
  | sub rd rj rk =>
    rcases issue_cases .sub rd (resolve s rj) (resolve s rk) s with ⟨h, e⟩ | ⟨f, h, hr, hf, e⟩
    · exact .inl ⟨by simp [issuesNow, h], e⟩
    · exact .inr ⟨.sub, rd, _, _, f, by simp [issuesNow, kindOf, h], rfl, rfl, hr, hf, e, .inl ⟨rj, rk, rfl, rfl, by simp⟩⟩
  | mul rd rj rk =>
    rcases issue_cases .mul rd (resolve s rj) (resolve s rk) s with ⟨h, e⟩ | ⟨f, h, hr, hf, e⟩
    · exact .inl ⟨by simp [issuesNow, h], e⟩
    · exact .inr ⟨.mul, rd, _, _, f, by simp [issuesNow, kindOf, h], rfl, rfl, hr, hf, e, .inl ⟨rj, rk, rfl, rfl, by simp⟩⟩
  | div rd rj rk =>
    rcases issue_cases .div rd (resolve s rj) (resolve s rk) s with ⟨h, e⟩ | ⟨f, h, hr, hf, e⟩
    · exact .inl ⟨by simp [issuesNow, h], e⟩
    · exact .inr ⟨.div, rd, _, _, f, by simp [issuesNow, kindOf, h], rfl, rfl, hr, hf, e, .inl ⟨rj, rk, rfl, rfl, by simp⟩⟩
  | loadImm rd imm =>
    rcases issue_cases .loadImm rd (.val imm) (.val 0) s with ⟨h, e⟩ | ⟨f, h, hr, hf, e⟩
    · exact .inl ⟨by simp [issuesNow, h], e⟩
    · exact .inr ⟨.loadImm, rd, _, _, f, by simp [issuesNow, kindOf, h], rfl, rfl, hr, hf, e, .inr ⟨imm, rfl, rfl, rfl⟩⟩
  | halt => exact .inl ⟨rfl, rfl⟩

/-- What an allocation leaves in each field (R106, R107, R108). -/
theorem allocate_eq (op : OpKind) (rd : RegIdx) (j k : Operand) (f : Nat) (s : State) :
    allocate op rd j k f s =
      { s with
        rob := s.rob.set s.tail ((s.robAt s.tail).allocate op rd)
        rs := s.rs.set f (newStation op j k s.tail)
        tail := (s.tail + 1) % s.cfg.robSize
        count := s.count + 1
        pc := s.pc + 1 } := rfl

theorem robAt_allocate_tail (op : OpKind) (rd : RegIdx) (j k : Operand) (f : Nat) (s : State)
    (h : s.tail < s.rob.length) :
    (allocate op rd j k f s).robAt s.tail = (s.robAt s.tail).allocate op rd :=
  getD_set_self _ _ _ _ h

theorem robAt_allocate_ne (op : OpKind) (rd : RegIdx) (j k : Operand) (f n : Nat) (s : State) (h : n ≠ s.tail) :
    (allocate op rd j k f s).robAt n = s.robAt n :=
  getD_set_ne _ _ _ _ _ (Ne.symm h)

theorem rsAt_allocate_self (op : OpKind) (rd : RegIdx) (j k : Operand) (f : Nat) (s : State)
    (h : f < s.rs.length) : (allocate op rd j k f s).rsAt f = newStation op j k s.tail :=
  getD_set_self _ _ _ _ h

theorem rsAt_allocate_ne (op : OpKind) (rd : RegIdx) (j k : Operand) (f n : Nat) (s : State) (h : n ≠ f) :
    (allocate op rd j k f s).rsAt n = s.rsAt n :=
  getD_set_ne _ _ _ _ _ (Ne.symm h)

/-! ### Execute -/

theorem robAt_execute (s : State) (k : Nat) (hk : k < s.rob.length) :
    (execute s).robAt k = s.executeEntry k (s.robAt k) := by
  simp [State.robAt, List.getD_eq_getElem?_getD, hk]

theorem rsAt_execute (s : State) (i : Nat) (hi : i < s.rs.length) :
    (execute s).rsAt i = (s.rsAt i).execute := by
  simp [State.rsAt, List.getD_eq_getElem?_getD, hi]

theorem station_execute_of_eligible {st : Station} (h : st.eligible = true) : st.execute = { st with occ := false } := by
  simp [Station.execute, h]

theorem station_execute_of_not_eligible {st : Station} (h : st.eligible = false) : st.execute = st := by
  simp [Station.execute, h]

/-- An entry that no eligible station computes for gets no value. -/
theorem resultFor_none {s : State} {k : Nat}
    (h : ∀ i, i < s.rs.length → (s.rsAt i).eligible = true → (s.rsAt i).dest ≠ k) : s.resultFor k = none := by
  have : s.rs.find? (fun st => st.eligible && st.dest == k) = none := by
    rw [List.find?_eq_none]
    intro st hst
    obtain ⟨i, hi, rfl⟩ := List.getElem_of_mem hst
    have := h i hi
    simp only [State.rsAt, List.getD_eq_getElem?_getD, hi, List.getElem?_eq_getElem, Option.getD_some] at this
    simpa using this
  simp [State.resultFor, this]

/-- An entry that exactly one eligible station computes for gets that station's result. -/
theorem resultFor_some {s : State} {i : Nat} (hi : i < s.rs.length) (he : (s.rsAt i).eligible = true)
    (hu : ∀ i', i' < s.rs.length → (s.rsAt i').eligible = true → (s.rsAt i').dest = (s.rsAt i).dest → i' = i) :
    s.resultFor (s.rsAt i).dest = (s.rsAt i).result := by
  have hat : ∀ n (hn : n < s.rs.length), s.rsAt n = s.rs[n] := fun n hn => by
    simp [State.rsAt, List.getD_eq_getElem?_getD, hn]
  have : s.rs.find? (fun st => st.eligible && st.dest == (s.rsAt i).dest) = some (s.rsAt i) := by
    rw [List.find?_eq_some_iff_getElem]
    refine ⟨by simp [he], i, hi, (hat i hi).symm, fun n hn => ?_⟩
    have hnl : n < s.rs.length := by omega
    have := hu n hnl
    rw [hat n hnl] at this
    by_contra hc
    simp only [Bool.not_eq_true', Bool.not_eq_false, Bool.and_eq_true, beq_iff_eq] at hc
    have := this hc.1 hc.2
    omega
  simp [State.resultFor, this]

/-! ### Broadcast -/

theorem robAt_broadcast (s : State) (k : Nat) : (broadcast s).robAt k = s.robAt k := rfl

theorem rsAt_broadcast (s : State) (i : Nat) (hi : i < s.rs.length) :
    (broadcast s).rsAt i = s.hearStation (s.rsAt i) := by
  simp [State.rsAt, List.getD_eq_getElem?_getD, hi]

@[simp] theorem hearStation_op (s : State) (st : Station) : (s.hearStation st).op = st.op := by
  unfold State.hearStation; split <;> rfl

@[simp] theorem hearStation_dest (s : State) (st : Station) : (s.hearStation st).dest = st.dest := by
  unfold State.hearStation; split <;> rfl

@[simp] theorem hearStation_occ (s : State) (st : Station) : (s.hearStation st).occ = st.occ := by
  unfold State.hearStation; split <;> rfl

@[simp] theorem hear_q (s : State) (x : OperandFields) : (s.hear x).q = x.q := by
  unfold State.hear; split <;> rfl

/-- Everything Broadcast can do to an operand. -/
theorem hear_cases (s : State) (x : OperandFields) :
    (x.qv = true ∧ (s.robAt x.q).done = true ∧ s.hear x = { x with v := (s.robAt x.q).value, qv := false }) ∨
      ((x.qv = false ∨ (s.robAt x.q).done = false) ∧ s.hear x = x) := by
  unfold State.hear
  cases x.qv <;> cases (s.robAt x.q).done <;> simp

/-! ### Commit -/

/-- Everything Commit can do. -/
theorem commit_cases (s : State) :
    ((s.robAt s.head).done = true ∧
        commit s = ((s.writeReg (s.robAt s.head).dest (s.robAt s.head).value).setRob s.head
          (s.robAt s.head).retire).popHead) ∨
      ((s.robAt s.head).done = false ∧ commit s = s) := by
  unfold commit
  cases (s.robAt s.head).done <;> simp

@[simp] theorem commit_cfg (s : State) : (commit s).cfg = s.cfg := by
  rcases commit_cases s with ⟨-, e⟩ | ⟨-, e⟩ <;> simp [e]

@[simp] theorem commit_im (s : State) : (commit s).im = s.im := by
  rcases commit_cases s with ⟨-, e⟩ | ⟨-, e⟩ <;> simp [e]

@[simp] theorem commit_pc (s : State) : (commit s).pc = s.pc := by
  rcases commit_cases s with ⟨-, e⟩ | ⟨-, e⟩ <;> simp [e]

@[simp] theorem commit_tail (s : State) : (commit s).tail = s.tail := by
  rcases commit_cases s with ⟨-, e⟩ | ⟨-, e⟩ <;> simp [e]

@[simp] theorem commit_cycle (s : State) : (commit s).cycle = s.cycle := by
  rcases commit_cases s with ⟨-, e⟩ | ⟨-, e⟩ <;> simp [e]

@[simp] theorem commit_rs (s : State) : (commit s).rs = s.rs := by
  rcases commit_cases s with ⟨-, e⟩ | ⟨-, e⟩ <;> simp [e]

/-- Commit changes no entry but the head. -/
theorem robAt_commit_ne (s : State) (n : Nat) (h : n ≠ s.head) : (commit s).robAt n = s.robAt n := by
  rcases commit_cases s with ⟨-, e⟩ | ⟨-, e⟩
  · rw [e]; exact getD_set_ne _ _ _ _ _ (Ne.symm h)
  · rw [e]

/-- A head that is done is retired. -/
theorem robAt_commit_head (s : State) (h : s.head < s.rob.length) (hd : (s.robAt s.head).done = true) :
    (commit s).robAt s.head = (s.robAt s.head).retire := by
  rcases commit_cases s with ⟨-, e⟩ | ⟨hn, -⟩
  · rw [e]; exact getD_set_self _ _ _ _ h
  · simp [hd] at hn

/-- Commit changes no register but the head's destination. -/
theorem regAt_commit_ne (s : State) (r : RegIdx) (h : (s.robAt s.head).dest ≠ r) :
    (commit s).regAt r = s.regAt r := by
  rcases commit_cases s with ⟨-, e⟩ | ⟨-, e⟩
  · rw [e]; exact regAt_writeReg_ne _ _ _ _ h
  · rw [e]

/-! ### The resolver -/

/-- Everything the resolver can answer (R104). -/
theorem resolve_cases (s : State) (r : RegIdx) :
    (∃ k, resolve s r = .tag k ∧ k < s.rob.length ∧ (s.robAt k).produces r = true ∧
        ∀ k', k' < k → (s.robAt k').produces r = false) ∨
      (resolve s r = .val (s.regAt r) ∧ ∀ k, k < s.rob.length → (s.robAt k).produces r = false) := by
  unfold resolve
  cases h : s.rob.findIdx? (RobEntry.produces r) with
  | some k =>
    rw [List.findIdx?_eq_some_iff_getElem] at h
    obtain ⟨hk, hp, hlow⟩ := h
    refine .inl ⟨k, rfl, hk, ?_, fun k' hk' => ?_⟩
    · simpa [State.robAt, List.getD_eq_getElem?_getD, hk] using hp
    · simpa [State.robAt, List.getD_eq_getElem?_getD, show k' < s.rob.length by omega] using hlow k' hk'
  | none =>
    rw [List.findIdx?_eq_none_iff] at h
    refine .inr ⟨rfl, fun k hk => ?_⟩
    simpa [State.robAt, List.getD_eq_getElem?_getD, hk] using h _ (List.getElem_mem hk)

end Sys2Proof.Machine
end

