-- ==== Sys2Proof/Laws/PerInstr.lean ====
section
/-! SUPPORT. Facts about every instruction as syntax, one lemma for each constructor. -/

namespace Sys2Proof.Laws.RegsAreFields

/-- The registers an instruction uses are among the register fields of its word, in the order RD, RJ, RK, and
its destination is RD (R67, R68, R69). -/
def Statement (i : Instr) : Prop :=
  i.regs = ([rdField (encode i), rjField (encode i), rkField (encode i)]).take i.regs.length ∧
    Machine.destOf i = (i.regs.head?)

theorem fields_of_rr (c : OpBits) (rd rj rk : RegIdx) :
    rdField (encodeRR c rd rj rk) = rd ∧ rjField (encodeRR c rd rj rk) = rj ∧ rkField (encodeRR c rd rj rk) = rk := by
  refine ⟨?_, ?_, ?_⟩ <;>
  · ext i hi
    obtain h | h | h | h | h : i = 0 ∨ i = 1 ∨ i = 2 ∨ i = 3 ∨ i = 4 := by omega
    all_goals subst h; simp [rdField, rjField, rkField, encodeRR, placeOp, placeReg]

theorem rr_statement (c : OpBits) (rd rj rk : RegIdx) :
    [rd, rj, rk] = [rdField (encodeRR c rd rj rk), rjField (encodeRR c rd rj rk), rkField (encodeRR c rd rj rk)] := by
  obtain ⟨h1, h2, h3⟩ := fields_of_rr c rd rj rk
  rw [h1, h2, h3]

theorem add (rd rj rk : RegIdx) : Statement (.add rd rj rk) := ⟨rr_statement _ rd rj rk, rfl⟩

theorem sub (rd rj rk : RegIdx) : Statement (.sub rd rj rk) := ⟨rr_statement _ rd rj rk, rfl⟩

theorem mul (rd rj rk : RegIdx) : Statement (.mul rd rj rk) := ⟨rr_statement _ rd rj rk, rfl⟩

theorem div (rd rj rk : RegIdx) : Statement (.div rd rj rk) := ⟨rr_statement _ rd rj rk, rfl⟩

theorem loadImm (rd : RegIdx) (imm : Word) : Statement (.loadImm rd imm) := by
  refine ⟨?_, rfl⟩
  have : rdField (encode (.loadImm rd imm)) = rd := by
    ext i hi
    obtain h | h | h | h | h : i = 0 ∨ i = 1 ∨ i = 2 ∨ i = 3 ∨ i = 4 := by omega
    all_goals subst h; simp [rdField, encode, placeOp, placeReg]
  simp [Instr.regs, this]

theorem halt : Statement .halt := ⟨rfl, rfl⟩

end Sys2Proof.Laws.RegsAreFields
end

