-- ==== Sys2Proof/Tests/Slice0.lean ====
section
/-! SUPPORT. Tests with the expected results of spec/95_test_vectors.md and of the worked examples of
spec/30_encoding.md, and for each statement with hypotheses a witness that meets them. -/

namespace Sys2Proof.Tests

open Sys2Proof Sys2Proof.Machine

/-! ### Builders -/

/-- A holding operand. -/
def v (x : Word) : OperandFields := { v := x, qv := false, q := 0 }

/-- A waiting operand. -/
def tag (q : Nat) : OperandFields := { v := 0, qv := true, q := q }

/-- `{op, Rd, unready}` of the vectors. -/
def unready (op : OpBits) (rd : RegIdx) : RobEntry := { op := op, dest := rd, value := 0, ready := false, inuse := true }

/-- `{op, Rd, ready v}` of the vectors. -/
def ready (op : OpBits) (rd : RegIdx) (x : Word) : RobEntry :=
  { op := op, dest := rd, value := x, ready := true, inuse := true }

/-- `{op, J, K, dest}` of the vectors. -/
def busy (op : OpBits) (j k : OperandFields) (d : Nat) : Station := { op := op, j := j, k := k, dest := d, occ := true }

/-- Reset with `rob` entries, `rs` stations, 8 registers and a sequence. -/
def small (rob rs : Nat) (im : List Diw) : State :=
  State.resetWith { nregs := 8, robSize := rob, rsSize := rs, rfInit := List.replicate 8 0 } im

/-- The state a step answers, `d` if it stops. -/
def after (s : State) : State :=
  match step s with
  | .next t => t
  | _ => s

/-- The reason a step is refused for. -/
def why (s : State) : Option Refusal :=
  match step s with
  | .refused r => some r
  | _ => none

/-- A step answers a next state. -/
def steps (s : State) : Bool :=
  match step s with
  | .next _ => true
  | _ => false

/-- T-RS1: every station occupied. -/
def tRs1 : State :=
  { small 4 2 [0x0308400000000000, 0xA000000000000000] with
    tail := 2, count := 2
    rob := [unready 0 1, unready 0 2, RobEntry.zero, RobEntry.zero]
    rs := [busy 0 (v 1) (v 2) 0, busy 0 (tag 0) (v 3) 1] }

/-- T-ROB1: reorder buffer full, the window wrapped. -/
def tRob1 : State :=
  { small 2 4 [0x8300000000000007, 0xA000000000000000] with
    head := 1, tail := 1, count := 2
    rob := [unready 1 2, unready 0 1]
    rs := [busy 0 (v 10) (v 20) 1, busy 1 (tag 1) (v 5) 0, Station.zero, Station.zero] }

/-- T-WAW1: two writers of R1, the older at the lower index; ADD R2, R1, R0 at pc. -/
def tWaw1 : State :=
  { small 4 4 [0x0208000000000000, 0xA000000000000000] with
    tail := 2, count := 2
    rf := [0, 100, 0, 0, 0, 0, 0, 0]
    rob := [unready 0 1, unready 2 1, RobEntry.zero, RobEntry.zero]
    rs := [busy 0 (v 1) (v 1) 0, busy 2 (v 5) (v 5) 1, Station.zero, Station.zero] }

/-- T-WAW2: two writers of R1, the window wrapped. -/
def tWaw2 : State :=
  { small 4 4 [0x0208000000000000, 0xA000000000000000] with
    head := 3, tail := 1, count := 2
    rf := [0, 100, 0, 0, 0, 0, 0, 0]
    rob := [unready 2 1, RobEntry.zero, RobEntry.zero, unready 0 1]
    rs := [busy 0 (v 1) (v 1) 3, busy 2 (v 5) (v 5) 0, Station.zero, Station.zero] }

/-- T-HZ1: a ready, uncommitted writer of R2; ADD R3, R2, R2 at pc. -/
def tHz1 : State :=
  { small 4 4 [0x0310800000000000, 0xA000000000000000] with
    tail := 2, count := 2
    rf := [0, 0, 100, 0, 0, 0, 0, 0]
    rob := [unready 0 5, ready 4 2 7, RobEntry.zero, RobEntry.zero]
    rs := [busy 0 (v 1) (v 1) 0, Station.zero, Station.zero, Station.zero] }

/-- T-BC1: one producer, two consumers and a chain; HALT at pc. -/
def tBc1 : State :=
  { small 4 4 [0xA000000000000000] with
    tail := 3, count := 3
    rob := [unready 0 1, unready 0 4, unready 1 5, RobEntry.zero]
    rs := [busy 0 (v 2) (v 3) 0, busy 0 (tag 0) (v 1) 1, busy 1 (tag 0) (tag 1) 2, Station.zero] }

/-- T-BC2: MUL R2, R1, R1 issues while the producer of R1 is in flight. -/
def tBc2 : State :=
  { small 4 4 [0x4208400000000000, 0x2308000000000000, 0xA000000000000000] with
    tail := 1, count := 1
    rob := [unready 0 1, RobEntry.zero, RobEntry.zero, RobEntry.zero]
    rs := [busy 0 (v 2) (v 3) 0, Station.zero, Station.zero, Station.zero] }

/-- T-WRAP: allocation at the last index. -/
def tWrap : State :=
  { small 4 4 [0x0108400000000000, 0xA000000000000000] with
    head := 3, tail := 3
    rf := [0, 21, 0, 0, 0, 0, 0, 0] }

/-! ### Decoding (spec/95_test_vectors.md 2.2; words of 30_encoding.md R80) -/

theorem test_decode_add : decode 32 0x0308800000000000 = .ok (.add 3 1 2) := by decide
theorem test_decode_add_ignores_imm : decode 32 0x0308800012345678 = .ok (.add 3 1 2) := by decide
theorem test_decode_add_ignores_rsv : decode 32 0x0308BFFF00000000 = .ok (.add 3 1 2) := by decide
theorem test_decode_sub : decode 32 0x2820800000000000 = .ok (.sub 8 4 2) := by decide
theorem test_decode_mul : decode 32 0x4418C00000000000 = .ok (.mul 4 3 3) := by decide
theorem test_decode_div : decode 32 0x6621400000000000 = .ok (.div 6 4 5) := by decide
theorem test_decode_loadImm : decode 32 0x82000000FFFFFFFE = .ok (.loadImm 2 (-2)) := by decide
theorem test_decode_loadImm_ignores_rj : decode 32 0x81F8000000000005 = .ok (.loadImm 1 5) := by decide
theorem test_decode_halt_all_ones : decode 32 0xBFFFFFFFFFFFFFFF = .ok .halt := by decide
theorem test_decode_op6 : decode 32 0xC000000000000000 = .invalid .unknownOperation := by decide
theorem test_decode_op7 : decode 32 0xE000000000000000 = .invalid .unknownOperation := by decide
theorem test_decode_rd_out_of_range : decode 8 0x0808800000000000 = .invalid .registerOutOfRange := by decide
theorem test_decode_loadImm_out_of_range : decode 8 0x8800000000000000 = .invalid .registerOutOfRange := by decide
theorem test_decode_halt_unchecked : decode 8 0xA800000000000000 = .ok .halt := by decide
theorem test_encode_div : encode (.div 3 1 2) = 0x6308800000000000 := by decide
theorem test_encode_loadImm : encode (.loadImm 5 (-1)) = 0x85000000FFFFFFFF := by decide
theorem test_table_word : decodeTableWord 64 0xA000000000000000 = some .halt := by decide

/-! ### WellFormed: an ill-formed term for each check, refused -/

theorem test_illformed_rd : Instr.wellFormed 8 (.add 8 1 2) = false ∧ Instr.wellFormed 8 (.sub 8 1 2) = false ∧
    Instr.wellFormed 8 (.mul 8 1 2) = false ∧ Instr.wellFormed 8 (.div 8 1 2) = false := by decide
theorem test_illformed_rj : Instr.wellFormed 8 (.add 1 8 2) = false ∧ Instr.wellFormed 8 (.sub 1 8 2) = false ∧
    Instr.wellFormed 8 (.mul 1 8 2) = false ∧ Instr.wellFormed 8 (.div 1 8 2) = false := by decide
theorem test_illformed_rk : Instr.wellFormed 8 (.add 1 2 8) = false ∧ Instr.wellFormed 8 (.sub 1 2 8) = false ∧
    Instr.wellFormed 8 (.mul 1 2 8) = false ∧ Instr.wellFormed 8 (.div 1 2 8) = false := by decide
theorem test_illformed_loadImm : Instr.wellFormed 8 (.loadImm 8 0) = false := by decide
theorem test_wellformed_boundary : Instr.wellFormed 8 (.add 7 7 7) = true ∧ Instr.wellFormed 8 (.loadImm 7 0) = true ∧
    Instr.wellFormed 1 .halt = true := by decide

/-! ### Compute (spec/95_test_vectors.md 2.1) -/

theorem test_add_vectors : addResult 5 3 = 8 ∧ addResult 0x7FFFFFFF 1 = 0x80000000 ∧ addResult 0xFFFFFFFF 1 = 0 ∧
    addResult 0x80000000 0x80000000 = 0 := by decide
theorem test_sub_vectors : subResult 3 5 = 0xFFFFFFFE ∧ subResult 0 1 = 0xFFFFFFFF ∧
    subResult 0x80000000 1 = 0x7FFFFFFF ∧ subResult 7 7 = 0 := by decide
theorem test_mul_vectors : mulResult 0xFFFFFFFD 4 = 0xFFFFFFF4 ∧ mulResult 0x7FFFFFFF 0x7FFFFFFF = 1 ∧
    mulResult 0x10000 0x10000 = 0 ∧ mulResult 0xFFFFFFFF 0xFFFFFFFF = 1 ∧ mulResult 12345 0 = 0 := by decide
theorem test_div_vectors : divResult 7 2 = 3 ∧ divResult 0xFFFFFFF9 2 = 0xFFFFFFFD ∧
    divResult 7 0xFFFFFFFE = 0xFFFFFFFD ∧ divResult 0xFFFFFFF9 0xFFFFFFFE = 3 ∧ divResult 7 0 = 0 ∧
    divResult 0 0 = 0 ∧ divResult 0x80000000 0 = 0 ∧ divResult 0x80000000 0xFFFFFFFF = 0x80000000 ∧
    divResult 0x80000000 1 = 0x80000000 ∧ divResult 1 0x80000000 = 0 ∧ divResult 5 5 = 1 ∧
    divResult 0 0xFFFFFFFD = 0 := by decide
/-! ### One step of each instruction -/

/-- T-WAW1, cycle 1: the consumer binds to the older writer and hears its value. -/
theorem test_add_binds_lowest_index : (after tWaw1).rsAt 2 = { busy 0 (v 2) (v 0) 2 with j := { v := 2, qv := false, q := 0 } } ∧
    (after tWaw1).regAt 1 = 2 ∧ (after tWaw1).robAt 1 = ready 2 1 25 := by decide
/-- T-BC2, cycle 2: SUB R3, R1, R0 reads R1 = 5 from RF, executes at once and waits behind the head. -/
theorem test_sub_executes_behind_head :
    (after { tBc2 with
      pc := 1, head := 1, tail := 2, rf := [0, 5, 0, 0, 0, 0, 0, 0]
      rob := [RobEntry.zero, unready 2 2, RobEntry.zero, RobEntry.zero]
      rs := [Station.zero, busy 2 (v 5) (v 5) 1, Station.zero, Station.zero] }).robAt 2 = ready 1 3 5 := by decide
/-- T-BC2, cycle 1. -/
theorem test_mul_waits_and_hears : (after tBc2).rsAt 1 = busy 2 (v 5) (v 5) 1 ∧ (after tBc2).pc = 1 := by decide
/-- Program P2, index 3: 7 / -2 = -3, alone in the machine. -/
theorem test_div_alone :
    (after { small 4 4 [0x6308800000000000, 0xA000000000000000] with rf := [0, 7, 0xFFFFFFFE, 0, 0, 0, 0, 0] }).regAt 3 =
      0xFFFFFFFD := by decide
/-- L1-1, cycle 1. -/
theorem test_loadImm_same_cycle :
    (after (small 4 4 [0x8100000000000005, 0xA000000000000000])).regAt 1 = 5 ∧
    (after (small 4 4 [0x8100000000000005, 0xA000000000000000])).head = 1 := by decide
/-- T-ROB1, cycle 1: the issue stalls, the head executes and commits, its value is heard. -/
theorem test_loadImm_stalls_when_full : (after tRob1).pc = 0 ∧ (after tRob1).tail = 1 ∧ (after tRob1).count = 1 ∧
    (after tRob1).regAt 1 = 30 ∧ (after tRob1).rsAt 1 = { busy 1 (v 30) (v 5) 0 with j := { v := 30, qv := false, q := 1 } } := by
  decide
/-- T-BC1, cycle 1. -/
theorem test_halt_drains : (after tBc1).pc = 0 ∧ (after tBc1).count = 2 ∧ (after tBc1).head = 1 ∧
    (after tBc1).regAt 1 = 5 := by decide

/-! ### Phases alone (spec/95_test_vectors.md 2.3, 2.4) -/

/-- V-EX-2: both stations execute in the same phase. -/
theorem test_execute_both :
    (execute { small 4 4 [] with
      rob := [unready 2 1, unready 3 2, RobEntry.zero, RobEntry.zero]
      rs := [busy 2 (v 2) (v 3) 0, busy 3 (v 9) (v 0) 1, Station.zero, Station.zero] }).rob.take 2 =
      [ready 2 1 6, ready 3 2 0] := by decide
/-- V-BC-1: RS1.J, RS2.J and RS2.K after the broadcast of entry 0. -/
theorem test_broadcast_all_consumers :
    ((broadcast { small 4 4 [] with
      rob := [ready 0 1 5, unready 0 2, RobEntry.zero, RobEntry.zero]
      rs := [Station.zero, busy 0 (tag 0) (v 1) 1, busy 1 (tag 0) (tag 1) 2, Station.zero] }).rs.map
        (fun st => (st.j.view, st.k.view))).drop 1 =
      [(.val 5, .val 1), (.val 5, .tag 1), (.val 0, .val 0)] := by decide
/-- V-CM-1: the head commits, the ready entry behind it waits. -/
theorem test_commit_only_head :
    (commit { small 4 4 [] with count := 2, rob := [ready 0 1 2, ready 2 1 25, RobEntry.zero, RobEntry.zero] }).regAt 1 = 2 := by
  decide
/-- V-CY-1. -/
theorem test_cycle_wraps : (cycleInc { State.reset with cycle := 0xFFFFFFFF }).cycle = 0 := by decide

/-! ### Refusals and fetching -/

/-- V-IS-12: an unknown operation is refused even when the reorder buffer is full. -/
theorem test_unknown_operation_before_stall :
    why { tRob1 with im := [0xC000000000000000, 0xA000000000000000] } = some .unknownOperation := by decide
theorem test_register_out_of_range :
    why (small 4 4 [0x0808800000000000, 0xA000000000000000]) = some .registerOutOfRange := by decide
theorem test_no_sequence : why State.reset = some .noHaltInSequence := by decide
theorem test_no_halt : why (small 4 4 [0x8100000000000005]) = some .noHaltInSequence := by decide
theorem test_ill_formed : why { tBc1 with count := 2 } = some .illFormedState := by decide
theorem test_fetch_word_runs :
    (after (State.reset.withFetchWord 64 0x8100000000000005)).regAt 1 = 5 ∧
    (after (State.reset.withFetchWord 64 0xA000000000000000)).cycle = 1 := by decide

/-- P5: a HALT at index 0 makes a run of zero steps. -/
theorem test_halt_first :
    driverRun 10 10 (small 4 4 [0xA000000000000000]) = .complete (small 4 4 [0xA000000000000000]) := by decide

/-! ### Witnesses: concrete states that meet the hypotheses of the statements -/

theorem tWaw1_coreWF : tWaw1.CoreWF := (coreOk_iff _).mp (by decide)
theorem tWaw2_coreWF : tWaw2.CoreWF := (coreOk_iff _).mp (by decide)
theorem tRob1_coreWF : tRob1.CoreWF := (coreOk_iff _).mp (by decide)
theorem tRs1_coreWF : tRs1.CoreWF := (coreOk_iff _).mp (by decide)
theorem tHz1_coreWF : tHz1.CoreWF := (coreOk_iff _).mp (by decide)
theorem tBc1_coreWF : tBc1.CoreWF := (coreOk_iff _).mp (by decide)
theorem tBc2_coreWF : tBc2.CoreWF := (coreOk_iff _).mp (by decide)
theorem tWrap_coreWF : tWrap.CoreWF := (coreOk_iff _).mp (by decide)
theorem tWaw1_WF : tWaw1.WF := ⟨tWaw1_coreWF, (haltAhead_iff _).mp (by decide)⟩
theorem tBc1_WF : tBc1.WF := ⟨tBc1_coreWF, (haltAhead_iff _).mp (by decide)⟩
theorem tRob1_WF : tRob1.WF := ⟨tRob1_coreWF, (haltAhead_iff _).mp (by decide)⟩
theorem tWrap_WF : tWrap.WF := ⟨tWrap_coreWF, (haltAhead_iff _).mp (by decide)⟩

/-- An empty machine of 8 registers whose loader has supplied `ws`. -/
def idle (ws : List Diw) : State := small 4 4 ws

theorem idle_coreWF : (idle [0xA000000000000000]).CoreWF := (coreOk_iff _).mp (by decide)
theorem idle_WF : (idle [0xA000000000000000]).WF := ⟨idle_coreWF, (haltAhead_iff _).mp (by decide)⟩

/-- A cycle that answers, for the statements about what a cycle changes. -/
theorem cycle_answers (i : Instr) (s : State) (hs : s.CoreWF) (hi : i.wellFormed s.cfg.nregs = true) :
    ∃ t, exec i s = .next t :=
  ⟨_, (exec_next_iff i s _).mpr ⟨hs, hi, rfl⟩⟩

/-- Each clause at a boundary value: registers 7 and 8 for NREGS = 8, and OP 3, 4, 5, 6, 7. -/
theorem witness_DecodeByFields :
    (∃ w : Diw, w.toNat / 2 ^ 61 ≤ 3 ∧ w.toNat / 2 ^ 56 % 32 < 8 ∧ w.toNat / 2 ^ 51 % 32 < 8 ∧ w.toNat / 2 ^ 46 % 32 < 8) ∧
    (∃ w : Diw, w.toNat / 2 ^ 61 ≤ 3 ∧ ¬(w.toNat / 2 ^ 56 % 32 < 8 ∧ w.toNat / 2 ^ 51 % 32 < 8 ∧ w.toNat / 2 ^ 46 % 32 < 8)) ∧
    (∃ w : Diw, w.toNat / 2 ^ 61 = 4 ∧ w.toNat / 2 ^ 56 % 32 < 8) ∧
    (∃ w : Diw, w.toNat / 2 ^ 61 = 4 ∧ ¬ w.toNat / 2 ^ 56 % 32 < 8) ∧
    (∃ w : Diw, w.toNat / 2 ^ 61 = 5) ∧ (∃ w : Diw, w.toNat / 2 ^ 61 = 6) ∧ (∃ w : Diw, w.toNat / 2 ^ 61 = 7) :=
  ⟨⟨0x6739C00000000000, by decide⟩, ⟨0x6808800000000000, by decide⟩, ⟨0x8700000000000000, by decide⟩,
    ⟨0x8800000000000000, by decide⟩, ⟨0xA000000000000000, by decide⟩, ⟨0xC000000000000000, by decide⟩,
    ⟨0xE000000000000000, by decide⟩⟩

theorem witness_DecodeEncodeRoundTrip : Instr.wellFormed 8 (.div 7 0 7) = true := by decide

theorem witness_EncodeKeepsTheUsedBits : decode 8 0x0308BFFF00000000 = .ok (.add 3 1 2) := by decide

/-- The words of V-DEC-1 and V-DEC-2, two reserved words, and a word at pc of a machine that steps and of one
that is refused. -/
theorem witness_IgnoredBitsBehaveTheSame :
    (0x0308800012345678 : Diw) &&& wordMask 0x0308800000000000 = 0x0308800000000000 &&& wordMask 0x0308800000000000 ∧
    (0xDFFFFFFFFFFFFFFF : Diw) &&& wordMask 0xC000000000000000 = 0xC000000000000000 &&& wordMask 0xC000000000000000 ∧
    (idle [0x0308800000000000, 0xA000000000000000]).im[0]? = some 0x0308800000000000 ∧
    steps (idle [0x0308800000000000, 0xA000000000000000]) = true ∧
    why (idle [0xC000000000000000, 0xA000000000000000]) = some .unknownOperation := by decide

/-- -2^31 by -1, and two quotients just beside that corner. -/
theorem witness_DivRoundsTowardZero :
    (0x80000000 : Word).toInt = -2 ^ 31 ∧ (0xFFFFFFFF : Word).toInt = -1 ∧
    ((1 : Word) ≠ 0 ∧ ¬((0x80000000 : Word).toInt = -2 ^ 31 ∧ (1 : Word).toInt = -1)) ∧
    ((0xFFFFFFFF : Word) ≠ 0 ∧ ¬((0x80000001 : Word).toInt = -2 ^ 31 ∧ (0xFFFFFFFF : Word).toInt = -1)) := by decide

/-- The hypotheses of the four RR statements about an empty reorder buffer (ADD, SUB, MUL, DIV). -/
theorem witness_AddFromEmptyRob : tWrap.CoreWF ∧ tWrap.count = 0 ∧ (7 : RegIdx).toNat < tWrap.cfg.nregs ∧
    (0 : RegIdx).toNat < tWrap.cfg.nregs := ⟨tWrap_coreWF, by decide⟩
theorem witness_SubFromEmptyRob : (idle [0xA000000000000000]).CoreWF ∧ (idle [0xA000000000000000]).count = 0 ∧
    (7 : RegIdx).toNat < (idle [0xA000000000000000]).cfg.nregs := ⟨idle_coreWF, by decide⟩
theorem witness_MulFromEmptyRob : tWrap.CoreWF ∧ tWrap.count = 0 ∧ (1 : RegIdx).toNat < tWrap.cfg.nregs :=
  ⟨tWrap_coreWF, by decide⟩
theorem witness_DivFromEmptyRob : (idle [0xA000000000000000]).CoreWF ∧ (idle [0xA000000000000000]).count = 0 ∧
    (3 : RegIdx).toNat < (idle [0xA000000000000000]).cfg.nregs := ⟨idle_coreWF, by decide⟩
theorem witness_LoadImmFromEmptyRob : tWrap.CoreWF ∧ tWrap.count = 0 ∧ (7 : RegIdx).toNat < tWrap.cfg.nregs :=
  ⟨tWrap_coreWF, by decide⟩
theorem witness_HaltFromEmptyRob : tWrap.CoreWF ∧ tWrap.count = 0 := ⟨tWrap_coreWF, by decide⟩

/-- A tag is captured (T-WAW1, ADD R2, R1, R0), and two values are (LOAD-IMM, with entries in flight). -/
theorem witness_IssueAllocatesAndExecutes :
    tWaw1.CoreWF ∧ Instr.wellFormed tWaw1.cfg.nregs (.add 2 1 0) = true ∧ kindOf (.add 2 1 0) = some .add ∧
    destOf (.add 2 1 0) = some 2 ∧ operandsOf (.add 2 1 0) tWaw1 = some (.tag 0, .val 0) ∧
    operandsOf (.loadImm 2 9) tWaw1 = some (.val 9, .val 0) ∧ tWaw1.count ≠ 0 ∧ tWaw1.count < tWaw1.cfg.robSize ∧
    2 < tWaw1.cfg.rsSize ∧ (tWaw1.rsAt 2).occ = false ∧ ∀ n, n < 2 → (tWaw1.rsAt n).occ = true :=
  ⟨tWaw1_coreWF, by decide⟩
/-- Two values with nothing in flight (T-WRAP). -/
theorem witness_IssueAllocatesAndExecutes_empty :
    tWrap.CoreWF ∧ operandsOf (.add 1 1 1) tWrap = some (.val 21, .val 21) ∧ tWrap.count = 0 ∧
    0 < tWrap.cfg.rsSize ∧ (tWrap.rsAt 0).occ = false := ⟨tWrap_coreWF, by decide⟩

/-- Reorder buffer full (T-ROB1), every station occupied (T-RS1), and neither (T-WAW1). -/
theorem witness_StallAllocatesNothing :
    (tRob1.CoreWF ∧ Instr.wellFormed tRob1.cfg.nregs (.loadImm 3 7) = true ∧ tRob1.count = tRob1.cfg.robSize) ∧
    (tRs1.CoreWF ∧ tRs1.count ≠ tRs1.cfg.robSize ∧ ∀ n, n < tRs1.cfg.rsSize → (tRs1.rsAt n).occ = true) ∧
    (tWaw1.CoreWF ∧ ¬(tWaw1.count = tWaw1.cfg.robSize ∨ ∀ n, n < tWaw1.cfg.rsSize → (tWaw1.rsAt n).occ = true)) :=
  ⟨⟨tRob1_coreWF, by decide⟩, ⟨tRs1_coreWF, by decide⟩, tWaw1_coreWF, by decide⟩

theorem witness_HaltRunsTheOtherPhases : tBc1.CoreWF ∧ tBc1.count = 3 := ⟨tBc1_coreWF, by decide⟩

theorem witness_IssuePhaseInFull :
    tHz1.CoreWF ∧ kindOf (.add 3 2 2) = some .add ∧ destOf (.add 3 2 2) = some 3 ∧
    operandsOf (.add 3 2 2) tHz1 = some (.val 100, .val 100) ∧ tHz1.count ≠ tHz1.cfg.robSize ∧ 1 < tHz1.cfg.rsSize ∧
    (tHz1.rsAt 1).occ = false ∧ ∀ n, n < 1 → (tHz1.rsAt n).occ = true := ⟨tHz1_coreWF, by decide⟩

/-- Two candidates (T-WAW2: index 0 wins over the older index 3), and none (T-HZ1). -/
theorem witness_ResolverTakesFirstMatch :
    tWaw2.rob.length = tWaw2.cfg.robSize ∧ resolve tWaw2 1 = .tag 0 ∧ resolve tHz1 2 = .val 100 := by decide

theorem witness_NewTagsNameOlderProducers :
    tWaw2.CoreWF ∧ tWaw2.count < tWaw2.cfg.robSize ∧ resolve tWaw2 1 = .tag 0 ∧
    Instr.wellFormed tWaw2.cfg.nregs (.add 2 1 0) = true :=
  ⟨tWaw2_coreWF, by decide⟩

/-- An eligible station (0), one that waits (1), a free one (3), and an entry nobody computes for (3). -/
theorem witness_ExecuteEligibleStations :
    tBc1.PhaseWF ∧ ((tBc1.rsAt 0).occ = true ∧ (tBc1.rsAt 0).j.qv = false ∧ (tBc1.rsAt 0).k.qv = false ∧
      OpKind.ofCode (tBc1.rsAt 0).op = some .add) ∧ (tBc1.rsAt 1).j.qv = true ∧ (tBc1.rsAt 3).occ = false ∧
    ∀ n, n < tBc1.cfg.rsSize → tBc1.feeds n 3 = true → (tBc1.rsAt n).eligible = false :=
  have h := tBc1_coreWF
  ⟨⟨h.1, h.2.1, h.2.2.1, h.2.2.2.1, h.2.2.2.2.1, h.2.2.2.2.2.1, h.2.2.2.2.2.2.2⟩, by decide⟩

/-- Tags to a done entry and to one that is not, an occupied station and a free one, after Execute in T-BC1. -/
theorem witness_BroadcastResolvesTags :
    ((execute tBc1).rsAt 1).occ = true ∧ ((execute tBc1).rsAt 1).j.qv = true ∧
    ((execute tBc1).robAt 0).done = true ∧ ((execute tBc1).rsAt 2).k.qv = true ∧
    ((execute tBc1).robAt 1).ready = false ∧ ((execute tBc1).rsAt 0).occ = false := by decide

/-- A head that is done (after T-BC1's Execute), one that is not ready, and one not in use. -/
theorem witness_CommitRetiresTheHead :
    ((execute tBc1).robAt (execute tBc1).head).done = true ∧ (tBc1.robAt tBc1.head).ready = false ∧
    (tWrap.robAt tWrap.head).inuse = false := by decide

theorem witness_NoTagToTheRetiredHead :
    tBc1.CoreWF ∧ Instr.wellFormed tBc1.cfg.nregs .halt = true ∧
    ((broadcast (execute (issuePhase .halt tBc1))).robAt 0).inuse = true ∧
    ((broadcast (execute (issuePhase .halt tBc1))).robAt 0).ready = true ∧
    ((broadcast (execute (issuePhase .halt tBc1))).rsAt 1).occ = true := ⟨tBc1_coreWF, by decide⟩

theorem witness_InputsUnchanged : ∃ t, exec (.add 2 1 0) tWaw1 = .next t :=
  cycle_answers _ _ tWaw1_coreWF (by decide)

/-- A cycle with entries in flight, one from an empty reorder buffer that issues, and one that does not. -/
theorem witness_RegisterFrame :
    ((∃ t, exec (.add 2 1 0) tWaw1 = .next t) ∧ committedReg (.add 2 1 0) tWaw1 = some 1) ∧
    ((∃ t, exec (.add 1 1 1) tWrap = .next t) ∧ committedReg (.add 1 1 1) tWrap = some 1) ∧
    ((∃ t, exec .halt tWrap = .next t) ∧ committedReg .halt tWrap = none) :=
  ⟨⟨cycle_answers _ _ tWaw1_coreWF (by decide), by decide⟩, ⟨cycle_answers _ _ tWrap_coreWF (by decide), by decide⟩,
    cycle_answers _ _ tWrap_coreWF (by decide), by decide⟩

/-- The head ready from an earlier cycle: T-HZ1 one cycle on. -/
def readyHead : State := { tHz1 with head := 1, count := 1, rob := [RobEntry.zero, ready 4 2 7, RobEntry.zero, RobEntry.zero]
                                     rs := List.replicate 4 Station.zero }

theorem readyHead_coreWF : readyHead.CoreWF := (coreOk_iff _).mp (by decide)

theorem witness_HeadCommitsInTheCycleItExecutes :
    ((∃ t, exec .halt readyHead = .next t) ∧ readyHead.count ≠ 0 ∧ (readyHead.robAt readyHead.head).ready = true) ∧
    ((∃ t, exec .halt tBc1 = .next t) ∧ tBc1.count ≠ 0 ∧ (tBc1.robAt tBc1.head).ready = false ∧
      tBc1.feeds 0 tBc1.head = true ∧ OpKind.ofCode (tBc1.rsAt 0).op = some .add) :=
  ⟨⟨cycle_answers _ _ readyHead_coreWF (by decide), by decide⟩, cycle_answers _ _ tBc1_coreWF (by decide), by decide⟩

theorem witness_OnlyTheHeadCommits :
    (∃ t, exec (.add 3 2 2) tHz1 = .next t) ∧ 1 < tHz1.cfg.robSize ∧ 1 ≠ tHz1.head ∧ (tHz1.robAt 1).inuse = true :=
  ⟨cycle_answers _ _ tHz1_coreWF (by decide), by decide⟩

/-- A ready entry behind the head (T-HZ1) and one at the head. -/
theorem witness_ReadyEntryKeptUntilRetired :
    ((∃ t, exec (.add 3 2 2) tHz1 = .next t) ∧ (tHz1.robAt 1).inuse = true ∧ (tHz1.robAt 1).ready = true ∧ 1 ≠ tHz1.head) ∧
    ((∃ t, exec .halt readyHead = .next t) ∧ (readyHead.robAt 1).inuse = true ∧ (readyHead.robAt 1).ready = true ∧
      1 = readyHead.head) :=
  ⟨⟨cycle_answers _ _ tHz1_coreWF (by decide), by decide⟩, cycle_answers _ _ readyHead_coreWF (by decide), by decide⟩

/-- In T-BC1's cycle: entry 3 is free and not allocated, entry 1 is unready and its station waits. -/
theorem witness_ReorderBufferFrame :
    (∃ t, exec .halt tBc1 = .next t) ∧ ¬(issuesNow .halt tBc1 = true ∧ 3 = tBc1.tail) ∧ (tBc1.robAt 3).inuse = false ∧
    (tBc1.robAt 1).inuse = true ∧ (tBc1.robAt 1).ready = false ∧
    ∀ n, n < tBc1.cfg.rsSize → tBc1.feeds n 1 = true → (tBc1.rsAt n).eligible = false :=
  ⟨cycle_answers _ _ tBc1_coreWF (by decide), by decide⟩

/-- In T-BC1's cycle: station 3 is free, station 0 executes, station 2 waits on a producer that computes now (0)
and on one that does not (1). -/
theorem witness_OperandsStayCaptured :
    (∃ t, exec .halt tBc1 = .next t) ∧ (tBc1.rsAt 3).occ = false ∧ ¬(issuesNow .halt tBc1 = true ∧ tBc1.freeStation = some 3) ∧
    (tBc1.rsAt 0).eligible = true ∧ (tBc1.rsAt 2).occ = true ∧ (tBc1.rsAt 2).eligible = false ∧
    (tBc1.rsAt 2).j.qv = true ∧ tBc1.feeds 0 (tBc1.rsAt 2).j.q = true ∧ tBc1.feeds 1 (tBc1.rsAt 2).k.q = true ∧
    (tBc1.rsAt 1).k.qv = false :=
  ⟨cycle_answers _ _ tBc1_coreWF (by decide), by decide⟩

/-- A cycle that issues and commits, one that commits alone, one that does neither. -/
theorem witness_SchedulerRegistersMove :
    ((∃ t, exec (.add 2 1 0) tWaw1 = .next t) ∧ issuesNow (.add 2 1 0) tWaw1 = true) ∧
    ((∃ t, exec (.loadImm 3 7) tRob1 = .next t) ∧ issuesNow (.loadImm 3 7) tRob1 = false ∧ tRob1.count ≠ 0) ∧
    ((∃ t, exec .halt tWrap = .next t) ∧ issuesNow .halt tWrap = false ∧ tWrap.count = 0) :=
  ⟨⟨cycle_answers _ _ tWaw1_coreWF (by decide), by decide⟩, ⟨cycle_answers _ _ tRob1_coreWF (by decide), by decide⟩,
    cycle_answers _ _ tWrap_coreWF (by decide), by decide⟩

theorem witness_EveryCycleCounts : ∃ t, exec (.mul 2 1 1) { tBc2 with cycle := 0xFFFFFFFF } = .next t :=
  cycle_answers _ _ ((coreOk_iff _).mp (by decide)) (by decide)

theorem witness_StepRunsTheDecodedInstruction :
    tWaw1.WF ∧ tWaw1.im[tWaw1.pc.toNat]? = some 0x0208000000000000 ∧
    decode tWaw1.cfg.nregs 0x0208000000000000 = .ok (.add 2 1 0) := ⟨tWaw1_WF, by decide⟩

theorem witness_StepCompletesOnWellFormedStates : tBc1.WF ∧ steps tBc1 = true := ⟨tBc1_WF, by decide⟩

/-- The three ways a word at pc is invalid, in a machine whose reorder buffer is full. -/
theorem witness_InvalidWordsRefused :
    ({ tRob1 with im := [0xE000000000000000, 0xA000000000000000] } : State).WF ∧
    opField 0xE000000000000000 = 7 ∧
    ({ tRob1 with im := [0x0808800000000000, 0xA000000000000000] } : State).WF ∧
    (opField 0x0808800000000000).toNat ≤ 3 ∧ tRob1.cfg.nregs ≤ (rdField 0x0808800000000000).toNat ∧
    ({ tRob1 with im := [0x8800000000000000, 0xA000000000000000] } : State).WF ∧
    opField 0x8800000000000000 = 4 ∧ tRob1.cfg.nregs ≤ (rdField 0x8800000000000000).toNat :=
  ⟨⟨(coreOk_iff _).mp (by decide), (haltAhead_iff _).mp (by decide)⟩, by decide,
    ⟨(coreOk_iff _).mp (by decide), (haltAhead_iff _).mp (by decide)⟩, by decide, by decide,
    ⟨(coreOk_iff _).mp (by decide), (haltAhead_iff _).mp (by decide)⟩, by decide, by decide⟩

/-- pc at PROG_CAP (no sequence at all), and a sequence without a HALT. -/
theorem witness_NoHaltAheadRefused :
    (State.reset.CoreWF ∧ State.reset.im.length ≤ State.reset.pc.toNat) ∧
    ((small 4 4 [0x8100000000000005]).CoreWF ∧ (small 4 4 [0x8100000000000005]).haltAhead = false ∧
      (small 4 4 [0x8100000000000005]).pc.toNat < (small 4 4 [0x8100000000000005]).im.length) :=
  ⟨⟨(coreOk_iff _).mp (by decide), by decide⟩, (coreOk_iff _).mp (by decide), by decide⟩

theorem witness_IllFormedStatesRefused : ¬ ({ tBc1 with count := 2 } : State).CoreWF :=
  fun h => absurd ((coreOk_iff _).mpr h) (by decide)

/-- Two states the stop test alone would end: a drained HALT whose tail is wrong, and one whose cycle number is
at the cap; W9 alone broken; and a well-formed state. -/
theorem witness_IllFormedStartsRefuseTheRun :
    (¬ ({ idle [0xA000000000000000] with tail := 1 } : State).CoreWF ∧
      ({ idle [0xA000000000000000] with tail := 1 } : State).drained = true) ∧
    (¬ ({ tBc1 with count := 2 } : State).CoreWF ∧ ({ tBc1 with count := 2 } : State).capped 0 = true) ∧
    (State.reset.CoreWF ∧ ¬ State.reset.W9) ∧ tBc1.WF :=
  ⟨⟨fun h => absurd ((coreOk_iff _).mpr h) (by decide), by decide⟩,
    ⟨fun h => absurd ((coreOk_iff _).mpr h) (by decide), by decide⟩,
    ⟨(coreOk_iff _).mp (by decide), fun h => absurd ((haltAhead_iff _).mpr h) (by decide)⟩, tBc1_WF⟩

/-- R176: the run, not only a step, is refused where the stop test would hold at once. -/
theorem test_run_refused_before_stop_test :
    driverRun 10 5 { idle [0xA000000000000000] with tail := 1 } = .refused .illFormedState ∧
    driverRun 0 5 { tBc1 with count := 2 } = .refused .illFormedState := by decide

/-- A step that issues, one that stalls, one on a HALT. -/
theorem witness_PcNeverWraps :
    (steps tWaw1 = true ∧ (after tWaw1).pc = 1) ∧ (steps tRob1 = true ∧ (after tRob1).pc = 0) ∧
    (steps tBc1 = true ∧ (after tBc1).pc = 0) := by decide

theorem witness_WordsAfterHaltIgnored :
    steps tWaw1 = true ∧ tWaw1.pc.toNat ≤ 1 ∧ isHaltWord (tWaw1.im.getD 1 0) = true ∧ 1 < tWaw1.im.length ∧
    [0x0208000000000000, 0xA000000000000000, 0xC000000000000000].take 2 = tWaw1.im.take 2 := by decide

theorem witness_DriverQueries : tBc1.im[tBc1.pc.toNat]? = some 0xA000000000000000 ∧ tBc1.robEmpty = false ∧
    tWrap.robEmpty = true := by decide

/-- The smallest parameters and the reference ones. -/
theorem witness_ResetValues :
    ({ nregs := 1, robSize := 1, rsSize := 1, rfInit := [5] } : Params).Ok ∧ Params.reference.Ok := by decide

theorem witness_LoadedResetWellFormed :
    Params.reference.Ok ∧ LoaderOk Params.reference.nregs [0x8100000000000005, 0xA000000000000000] :=
  ⟨by decide, by unfold LoaderOk; decide⟩

theorem witness_StepKeepsWellFormed : tWaw1.WF ∧ steps tWaw1 = true := ⟨tWaw1_WF, by decide⟩

theorem witness_PhasesKeepTheirClauses : tWaw1.CoreWF ∧ Instr.wellFormed tWaw1.cfg.nregs (.add 2 1 0) = true :=
  ⟨tWaw1_coreWF, by decide⟩

/-- Something in flight, nothing in flight and an issue, nothing at all. -/
theorem witness_CountLaw :
    ((∃ t, exec .halt tBc1 = .next t) ∧ tBc1.feeds 0 tBc1.head = true) ∧
    ((∃ t, exec (.add 1 1 1) tWrap = .next t) ∧ issuesNow (.add 1 1 1) tWrap = true) ∧
    (∃ t, exec .halt tWrap = .next t) :=
  ⟨⟨cycle_answers _ _ tBc1_coreWF (by decide), by decide⟩, ⟨cycle_answers _ _ tWrap_coreWF (by decide), by decide⟩,
    cycle_answers _ _ tWrap_coreWF (by decide)⟩

theorem witness_HaltDrainsTheRob : tBc1.WF ∧ tBc1.haltNext = some true ∧ 3 ≤ tBc1.count := ⟨tBc1_WF, by decide⟩

theorem witness_CountNeverIncreases : ∃ t, exec (.loadImm 3 7) tRob1 = .next t :=
  cycle_answers _ _ tRob1_coreWF (by decide)

theorem witness_EmptyRobStaysEmpty : tWrap.CoreWF ∧ tWrap.count = 0 ∧ steps tWrap = true := ⟨tWrap_coreWF, by decide⟩

theorem witness_DrainedHaltChangesOnlyCycle :
    (idle [0xA000000000000000]).WF ∧ (idle [0xA000000000000000]).haltNext = some true ∧
    (idle [0xA000000000000000]).robEmpty = true := ⟨idle_WF, by decide⟩

/-- T-WRAP from an empty reorder buffer whose head is the last entry. -/
theorem witness_SequentialFromEmptyRob :
    tWrap.WF ∧ tWrap.count = 0 ∧ programOf tWrap.cfg.nregs (tWrap.im.drop tWrap.pc.toNat) = some [.add 1 1 1] :=
  ⟨tWrap_WF, by decide⟩

/-- The source's scenario (program P1). -/
theorem witness_SequentialFromReset :
    Params.reference.Ok ∧
    programOf Params.reference.nregs [0x8100000000000005, 0x8200000000000003, 0x0308800000000000, 0xA000000000000000] =
      some [.loadImm 1 5, .loadImm 2 3, .add 3 1 2] ∧
    seqRun [.loadImm 1 5, .loadImm 2 3, .add 3 1 2] [0, 0, 0, 0] = [0, 5, 3, 8] := by decide

end Sys2Proof.Tests
end

section
/-! The constant inputs of a run (R10, R47, R62): no phase of a cycle writes the parameters or the
instruction sequence, so no instruction does. -/

namespace Sys2Proof.Machine

@[simp] theorem allocate_cfg (op : OpKind) (rd : RegIdx) (j k : Operand) (f : Nat) (s : State) :
    (allocate op rd j k f s).cfg = s.cfg := rfl

@[simp] theorem allocate_im (op : OpKind) (rd : RegIdx) (j k : Operand) (f : Nat) (s : State) :
    (allocate op rd j k f s).im = s.im := rfl

@[simp] theorem issuePhase_cfg (i : Instr) (s : State) : (issuePhase i s).cfg = s.cfg := by
  obtain ⟨-, e⟩ | ⟨op, rd, j, k, f, -, -, -, -, -, e, -⟩ := issuePhase_cases i s
  · rw [e]
  · rw [e, allocate_cfg]

@[simp] theorem issuePhase_im (i : Instr) (s : State) : (issuePhase i s).im = s.im := by
  obtain ⟨-, e⟩ | ⟨op, rd, j, k, f, -, -, -, -, -, e, -⟩ := issuePhase_cases i s
  · rw [e]
  · rw [e, allocate_im]

@[simp] theorem finishCycle_cfg (s : State) : (finishCycle s).cfg = s.cfg := by
  simp [finishCycle]

@[simp] theorem finishCycle_im (s : State) : (finishCycle s).im = s.im := by
  simp [finishCycle]

/-- Settles O26: the next state is the rest of the cycle run on the Issue phase, and neither of the two
writes an input. -/
theorem inputsUnchanged : Obligations.InputsUnchanged := by
  intro i s t h
  obtain ⟨-, -, rfl⟩ := (exec_next_iff i s t).mp h
  exact ⟨by rw [finishCycle_cfg, issuePhase_cfg], by rw [finishCycle_im, issuePhase_im]⟩

end Sys2Proof.Machine
end

section
/-! The clauses of WF by name (R44), and the window of the reorder buffer: the ages of the head and the tail, and
which entries are in use (R17, R28, R29). -/

namespace Sys2Proof.Machine

section Clauses

variable {s : State}

theorem State.CoreWF.shape (h : s.CoreWF) : s.Shape := h.1
theorem State.CoreWF.w1 (h : s.CoreWF) : s.W1 := h.2.1
theorem State.CoreWF.w2 (h : s.CoreWF) : s.W2 := h.2.2.1
theorem State.CoreWF.w3 (h : s.CoreWF) : s.W3 := h.2.2.2.1
theorem State.CoreWF.w4 (h : s.CoreWF) : s.W4 := h.2.2.2.2.1
theorem State.CoreWF.w5 (h : s.CoreWF) : s.W5 := h.2.2.2.2.2.1
theorem State.CoreWF.w6 (h : s.CoreWF) : s.W6 := h.2.2.2.2.2.2.1
theorem State.CoreWF.w7 (h : s.CoreWF) : s.W7 := h.2.2.2.2.2.2.2.1
theorem State.CoreWF.w8 (h : s.CoreWF) : s.W8 := h.2.2.2.2.2.2.2.2

theorem State.CoreWF.rob_length (h : s.CoreWF) : s.rob.length = s.cfg.robSize := by
  obtain ⟨-, -, hrob, -⟩ := h.shape
  exact hrob

theorem State.CoreWF.rs_length (h : s.CoreWF) : s.rs.length = s.cfg.rsSize := by
  obtain ⟨-, -, -, hrs, -⟩ := h.shape
  exact hrs

theorem State.CoreWF.head_lt (h : s.CoreWF) : s.head < s.cfg.robSize := by
  obtain ⟨-, hh, -⟩ := h.w1
  exact hh

theorem State.CoreWF.tail_lt (h : s.CoreWF) : s.tail < s.cfg.robSize := by
  obtain ⟨-, -, ht, -⟩ := h.w1
  exact ht

end Clauses

/-- `age` without the modulus: an entry below the head has wrapped (R17). -/
theorem age_eq_ite {s : State} {k : Nat} (hh : s.head < s.cfg.robSize) (hk : k < s.cfg.robSize) :
    s.age k = if s.head ≤ k then k - s.head else k + s.cfg.robSize - s.head := by
  unfold State.age
  split
  · rw [show k + s.cfg.robSize - s.head = k - s.head + s.cfg.robSize by omega, Nat.add_mod_right,
      Nat.mod_eq_of_lt (by omega)]
  · exact Nat.mod_eq_of_lt (by omega)

theorem age_head {s : State} (hh : s.head < s.cfg.robSize) : s.age s.head = 0 := by
  simp [age_eq_ite hh hh]

/-- While the buffer is not full, the tail is the one entry whose age is the count. -/
theorem age_eq_count_iff {s : State} {k : Nat} (h1 : s.W1) (hc : s.count < s.cfg.robSize) (hk : k < s.cfg.robSize) :
    s.age k = s.count ↔ k = s.tail := by
  obtain ⟨-, hh, -, ht⟩ := h1
  have htail : s.tail = if s.head + s.count < s.cfg.robSize then s.head + s.count
      else s.head + s.count - s.cfg.robSize := by
    rw [ht]
    split
    · exact Nat.mod_eq_of_lt ‹_›
    · rw [Nat.mod_eq_sub_mod (by omega), Nat.mod_eq_of_lt (by omega)]
  rw [age_eq_ite hh hk, htail]
  split <;> split <;> omega

section Window

variable {s : State}

theorem age_tail (h : s.CoreWF) (hc : s.count < s.cfg.robSize) : s.age s.tail = s.count :=
  (age_eq_count_iff h.w1 hc h.tail_lt).mpr rfl

theorem head_inuse_iff (h : s.CoreWF) : (s.robAt s.head).inuse = true ↔ s.count ≠ 0 := by
  rw [h.w2 _ h.head_lt, age_head h.head_lt]
  omega

theorem tail_inuse (h : s.CoreWF) (hc : s.count < s.cfg.robSize) : (s.robAt s.tail).inuse = false := by
  simpa [age_tail h hc] using h.w2 _ h.tail_lt

/-- An entry in use is not the one an allocation would take. -/
theorem ne_tail_of_inuse (h : s.CoreWF) (hc : s.count < s.cfg.robSize) {n : Nat} (hu : (s.robAt n).inuse = true) :
    n ≠ s.tail := by
  rintro rfl
  simp [tail_inuse h hc] at hu

/-- An occupied station computes for another entry than the one an allocation would take (W4). -/
theorem dest_ne_tail (h : s.CoreWF) (hc : s.count < s.cfg.robSize) {i : Nat} (hi : i < s.cfg.rsSize)
    (ho : (s.rsAt i).occ = true) : (s.rsAt i).dest ≠ s.tail := by
  obtain ⟨-, hu, -⟩ := h.w4 i hi ho
  exact ne_tail_of_inuse h hc hu

/-- With nothing in flight, head and tail agree (W1). -/
theorem tail_eq_head (h : s.CoreWF) (hc : s.count = 0) : s.tail = s.head := by
  obtain ⟨-, hh, -, ht⟩ := h.w1
  rw [ht, hc, Nat.add_zero, Nat.mod_eq_of_lt hh]

theorem count_lt_of_not_robFull (h : s.CoreWF) (hfull : s.robFull = false) : s.count < s.cfg.robSize := by
  obtain ⟨hle, -⟩ := h.w1
  have : s.count ≠ s.cfg.robSize := by simpa [State.robFull] using hfull
  omega

end Window

end Sys2Proof.Machine
end

section
/-! Issue keeps every clause of WF but W9: an allocation keeps each clause, and a stall or a HALT changes nothing
(R106 to R110, R114, R195). -/

namespace Sys2Proof.Machine

@[simp] theorem fields_val (v : Word) : (Operand.val v).fields = { v := v, qv := false, q := 0 } := rfl
@[simp] theorem fields_tag (q : Nat) : (Operand.tag q).fields = { v := 0, qv := true, q := q } := rfl

@[simp] theorem newStation_op (op : OpKind) (j k : Operand) (d : Nat) : (newStation op j k d).op = op.code := rfl
@[simp] theorem newStation_j (op : OpKind) (j k : Operand) (d : Nat) : (newStation op j k d).j = j.fields := rfl
@[simp] theorem newStation_k (op : OpKind) (j k : Operand) (d : Nat) : (newStation op j k d).k = k.fields := rfl
@[simp] theorem newStation_dest (op : OpKind) (j k : Operand) (d : Nat) : (newStation op j k d).dest = d := rfl
@[simp] theorem newStation_occ (op : OpKind) (j k : Operand) (d : Nat) : (newStation op j k d).occ = true := rfl

@[simp] theorem robEntry_allocate_op (e : RobEntry) (op : OpKind) (rd : RegIdx) :
    (e.allocate op rd).op = op.code := rfl
@[simp] theorem robEntry_allocate_dest (e : RobEntry) (op : OpKind) (rd : RegIdx) :
    (e.allocate op rd).dest = rd := rfl
@[simp] theorem robEntry_allocate_ready (e : RobEntry) (op : OpKind) (rd : RegIdx) :
    (e.allocate op rd).ready = false := rfl
@[simp] theorem robEntry_allocate_inuse (e : RobEntry) (op : OpKind) (rd : RegIdx) :
    (e.allocate op rd).inuse = true := rfl

@[simp] theorem ofCode_code (op : OpKind) : OpKind.ofCode op.code = some op := by
  cases op <;> rfl

theorem code_inj {op op' : OpKind} (h : op.code = op'.code) : op = op' :=
  Option.some.inj (by rw [← ofCode_code op, h, ofCode_code])

/-- Every reorder-buffer index fits a TAG_W-bit field. -/
theorem tagFits_of_lt {s : State} {k : Nat} (hk : k < s.cfg.robSize) : s.TagFits k := by
  have hlog : s.cfg.robSize ≤ 2 ^ ceilLog2 s.cfg.robSize := by
    unfold ceilLog2
    split
    · simpa using ‹_›
    · have := Nat.lt_log2_self (n := s.cfg.robSize - 1)
      omega
  have hpow : 2 ^ ceilLog2 s.cfg.robSize ≤ 2 ^ s.cfg.tagW :=
    Nat.pow_le_pow_right (by decide) (Nat.le_max_right _ _)
  exact lt_of_lt_of_le hk (hlog.trans hpow)

/-- What W6 says of a tag, clause by clause. -/
theorem isOlderProducer_iff (s : State) (q d : Nat) :
    s.isOlderProducer q d = true ↔
      q < s.cfg.robSize ∧ (s.robAt q).inuse = true ∧ (s.robAt q).ready = false ∧ s.age q < s.age d := by
  simp [State.isOlderProducer, RobEntry.unready, and_assoc]

theorem feeds_iff (s : State) (i n : Nat) : s.feeds i n = true ↔ (s.rsAt i).occ = true ∧ (s.rsAt i).dest = n := by
  simp [State.feeds]

/-! ### Operands -/

/-- An operand Issue may capture in `s`: a value, or the tag of an in-use, unready entry (R104, R110). -/
def State.Captures (s : State) (x : Operand) : Prop :=
  ∀ q, x = .tag q → q < s.cfg.robSize ∧ (s.robAt q).inuse = true ∧ (s.robAt q).ready = false

theorem captures_val (s : State) (v : Word) : s.Captures (.val v) := by
  intro q h
  cases h

theorem captures_resolve {s : State} (h : s.CoreWF) (r : RegIdx) : s.Captures (resolve s r) := by
  intro q hq
  obtain ⟨k, e, hk, hp, -⟩ | ⟨e, -⟩ := resolve_cases s r
  · obtain rfl : k = q := Operand.tag.inj (e.symm.trans hq)
    simp only [RobEntry.produces, RobEntry.unready, Bool.and_eq_true, Bool.not_eq_true', beq_iff_eq] at hp
    exact ⟨h.rob_length ▸ hk, hp.1⟩
  · rw [e] at hq
    cases hq

section Allocate

variable {op : OpKind} {rd : RegIdx} {j k : Operand} {f : Nat} {s : State}

theorem captures_tagFits (h : s.CoreWF) {x : Operand} (hx : s.Captures x) : s.TagFits x.fields.q := by
  cases x with
  | val v => exact tagFits_of_lt (Nat.zero_lt_of_lt h.head_lt)
  | tag q => exact tagFits_of_lt (hx q rfl).1

/-- A captured tag names an entry older than the one at the tail (R114). -/
theorem captures_tagOk (h : s.CoreWF) (hc : s.count < s.cfg.robSize) {x : Operand} (hx : s.Captures x) :
    s.TagOk x.fields s.tail := by
  cases x with
  | val v => simp [State.TagOk]
  | tag q =>
    obtain ⟨hq, hu, hr⟩ := hx q rfl
    refine fun _ => (isOlderProducer_iff _ _ _).mpr ⟨hq, hu, hr, ?_⟩
    rw [age_tail h hc]
    exact (h.w2 q hq).mp hu

/-! ### Reading after an allocation -/

@[simp] theorem allocate_rf : (allocate op rd j k f s).rf = s.rf := rfl
@[simp] theorem allocate_pc : (allocate op rd j k f s).pc = s.pc + 1 := rfl
@[simp] theorem allocate_head : (allocate op rd j k f s).head = s.head := rfl
@[simp] theorem allocate_tail : (allocate op rd j k f s).tail = (s.tail + 1) % s.cfg.robSize := rfl
@[simp] theorem allocate_count : (allocate op rd j k f s).count = s.count + 1 := rfl
@[simp] theorem allocate_age (n : Nat) : (allocate op rd j k f s).age n = s.age n := rfl

/-- The stations after an allocation: the allocated one, and the others as they were. -/
theorem rsAt_allocate (hf : s.freeStation = some f) (i : Nat) :
    (allocate op rd j k f s).rsAt i = if i = f then newStation op j k s.tail else s.rsAt i := by
  split
  · subst i
    exact rsAt_allocate_self op rd j k f s (freeStation_eq_some hf).1
  · exact rsAt_allocate_ne op rd j k f i s ‹_›

/-- The entries after an allocation: the allocated one, and the others as they were. -/
theorem robAt_allocate (h : s.CoreWF) (n : Nat) :
    (allocate op rd j k f s).robAt n = if n = s.tail then (s.robAt s.tail).allocate op rd else s.robAt n := by
  split
  · subst n
    exact robAt_allocate_tail op rd j k f s (h.rob_length ▸ h.tail_lt)
  · exact robAt_allocate_ne op rd j k f n s ‹_›

/-- Which stations compute for which entries after an allocation. -/
theorem feeds_allocate (hf : s.freeStation = some f) (i n : Nat) :
    (allocate op rd j k f s).feeds i n = if i = f then s.tail == n else s.feeds i n := by
  unfold State.feeds
  rw [rsAt_allocate hf]
  split <;> simp

/-- An older producer stays one: it is in use, and so is not the entry an allocation takes. -/
theorem isOlderProducer_allocate (h : s.CoreWF) (hc : s.count < s.cfg.robSize) {q d : Nat}
    (hq : s.isOlderProducer q d = true) : (allocate op rd j k f s).isOlderProducer q d = true := by
  obtain ⟨hlt, hu, hr, hage⟩ := (isOlderProducer_iff _ _ _).mp hq
  rw [isOlderProducer_iff, robAt_allocate h, if_neg (ne_tail_of_inuse h hc hu)]
  exact ⟨hlt, hu, hr, hage⟩

/-! ### Each clause after an allocation -/

theorem allocate_shape (h : s.CoreWF) (hf : s.freeStation = some f) (hj : s.Captures j) (hk : s.Captures k) :
    (allocate op rd j k f s).Shape := by
  obtain ⟨hok, hrf, hrob, hrs, him, hfit⟩ := h.shape
  refine ⟨hok, hrf, ?_, ?_, him, fun i hi => ?_⟩
  · simpa [allocate_eq] using hrob
  · simpa [allocate_eq] using hrs
  · rw [rsAt_allocate hf]
    split
    · exact ⟨tagFits_of_lt h.tail_lt, captures_tagFits h hj, captures_tagFits h hk⟩
    · exact hfit i hi

theorem allocate_w1 (h : s.CoreWF) (hc : s.count < s.cfg.robSize) : (allocate op rd j k f s).W1 := by
  obtain ⟨-, hh, -, ht⟩ := h.w1
  refine ⟨hc, hh, Nat.mod_lt _ (Nat.zero_lt_of_lt hh), ?_⟩
  rw [allocate_tail, allocate_head, allocate_count, allocate_cfg, ht, Nat.mod_add_mod, Nat.add_assoc]

theorem allocate_w2 (h : s.CoreWF) (hc : s.count < s.cfg.robSize) : (allocate op rd j k f s).W2 := by
  intro n hn
  have hage := age_eq_count_iff h.w1 hc hn
  rw [robAt_allocate h, allocate_age, allocate_count]
  split
  · have := hage.mpr ‹_›
    exact iff_of_true rfl (by omega)
  · have : s.age n ≠ s.count := fun e => ‹n ≠ s.tail› (hage.mp e)
    rw [h.w2 n hn]
    omega

theorem allocate_w3 (h : s.CoreWF) : (allocate op rd j k f s).W3 := by
  intro n hn
  rw [robAt_allocate h]
  split
  · exact fun _ => rfl
  · exact h.w3 n hn

theorem allocate_w4 (h : s.CoreWF) (hc : s.count < s.cfg.robSize) (hf : s.freeStation = some f) :
    (allocate op rd j k f s).W4 := by
  intro i hi
  rw [rsAt_allocate hf]
  split
  · intro _
    rw [newStation_dest, robAt_allocate h, if_pos rfl]
    exact ⟨h.tail_lt, rfl, rfl⟩
  · intro ho
    rw [robAt_allocate h, if_neg (dest_ne_tail h hc hi ho)]
    exact h.w4 i hi ho

theorem allocate_w5 (h : s.CoreWF) (hc : s.count < s.cfg.robSize) (hf : s.freeStation = some f) :
    (allocate op rd j k f s).W5 := by
  obtain ⟨hlt, hfree, -⟩ := freeStation_eq_some hf
  intro n hn
  rw [robAt_allocate h]
  simp only [feeds_allocate hf]
  split
  case isTrue e =>
    subst e
    refine fun _ _ => ⟨f, h.rs_length ▸ hlt, by simp, fun i hi hfeed => ?_⟩
    by_contra hne
    rw [if_neg hne, feeds_iff] at hfeed
    exact dest_ne_tail h hc hi hfeed.1 hfeed.2
  case isFalse hnt =>
    intro hu hr
    obtain ⟨i, hi, hfeed, huniq⟩ := h.w5 n hn hu hr
    have hif : i ≠ f := by
      rintro rfl
      simp [feeds_iff, hfree] at hfeed
    refine ⟨i, hi, by rwa [if_neg hif], fun i' hi' hfeed' => huniq i' hi' ?_⟩
    have hif' : i' ≠ f := by
      rintro rfl
      rw [if_pos rfl, beq_iff_eq] at hfeed'
      exact hnt hfeed'.symm
    rwa [if_neg hif'] at hfeed'

theorem allocate_w6 (h : s.CoreWF) (hc : s.count < s.cfg.robSize) (hf : s.freeStation = some f)
    (hj : s.Captures j) (hk : s.Captures k) : (allocate op rd j k f s).W6 := by
  intro i hi
  rw [rsAt_allocate hf]
  split
  · exact fun _ => ⟨fun hq => isOlderProducer_allocate h hc (captures_tagOk h hc hj hq),
      fun hq => isOlderProducer_allocate h hc (captures_tagOk h hc hk hq)⟩
  · intro ho
    obtain ⟨hj6, hk6⟩ := h.w6 i hi ho
    exact ⟨fun hq => isOlderProducer_allocate h hc (hj6 hq), fun hq => isOlderProducer_allocate h hc (hk6 hq)⟩

theorem allocate_w7 (h : s.CoreWF) (hc : s.count < s.cfg.robSize) (hf : s.freeStation = some f)
    (hrd : rd.toNat < s.cfg.nregs) : (allocate op rd j k f s).W7 := by
  obtain ⟨hrob, hrs⟩ := h.w7
  constructor
  · intro n hn
    rw [robAt_allocate h]
    split
    · exact fun _ => ⟨by simp, hrd⟩
    · exact hrob n hn
  · intro i hi
    rw [rsAt_allocate hf]
    split
    · intro _
      rw [newStation_dest, robAt_allocate h, if_pos rfl]
      rfl
    · intro ho
      rw [robAt_allocate h, if_neg (dest_ne_tail h hc hi ho)]
      exact hrs i hi ho

theorem allocate_w8 (h : s.CoreWF) (hf : s.freeStation = some f)
    (himm : op = .loadImm → j.fields.qv = false ∧ k.fields.qv = false) : (allocate op rd j k f s).W8 := by
  intro i hi
  rw [rsAt_allocate hf]
  split
  · exact fun _ hop => himm (code_inj hop)
  · exact h.w8 i hi

/-- An allocation into a buffer that is not full, with operands Issue may capture, keeps every clause. -/
theorem allocate_coreWF (h : s.CoreWF) (hc : s.count < s.cfg.robSize) (hf : s.freeStation = some f)
    (hrd : rd.toNat < s.cfg.nregs) (hj : s.Captures j) (hk : s.Captures k)
    (himm : op = .loadImm → j.fields.qv = false ∧ k.fields.qv = false) : (allocate op rd j k f s).CoreWF :=
  ⟨allocate_shape h hf hj hk, allocate_w1 h hc, allocate_w2 h hc, allocate_w3 h, allocate_w4 h hc hf,
    allocate_w5 h hc hf, allocate_w6 h hc hf hj hk, allocate_w7 h hc hf hrd, allocate_w8 h hf himm⟩

end Allocate

/-! ### The Issue phase -/

theorem destOf_lt {i : Instr} {n : Nat} {rd : RegIdx} (hi : i.wellFormed n = true) (hd : destOf i = some rd) :
    rd.toNat < n := by
  rw [Instr.wellFormed, regsInRange_iff] at hi
  cases i with
  | halt => cases hd
  | _ => cases hd; exact hi _ List.mem_cons_self

/-- Issue keeps every clause of WF but W9, whichever instruction stands at pc. -/
theorem issuePhase_coreWF {i : Instr} {s : State} (h : s.CoreWF) (hi : i.wellFormed s.cfg.nregs = true) :
    (issuePhase i s).CoreWF := by
  obtain ⟨-, e⟩ | ⟨op, rd, j, k, f, -, -, hd, hfull, hf, e, hops⟩ := issuePhase_cases i s
  · rwa [e]
  · have hrd := destOf_lt hi hd
    have hc := count_lt_of_not_robFull h hfull
    rw [e]
    obtain ⟨rj, rk, rfl, rfl, hop⟩ | ⟨imm, rfl, rfl, -⟩ := hops
    · exact allocate_coreWF h hc hf hrd (captures_resolve h rj) (captures_resolve h rk) (absurd · hop)
    · exact allocate_coreWF h hc hf hrd (captures_val s imm) (captures_val s 0) fun _ => ⟨rfl, rfl⟩

end Sys2Proof.Machine
end

section
/-! What Issue changes: pc, tail and count move exactly when it allocates; the head, the registers, every other
entry and every other station stay (R102, R103, R106 to R108). -/

namespace Sys2Proof.Machine

section Issue

variable (i : Instr) (s : State)

@[simp] theorem issuePhase_rf : (issuePhase i s).rf = s.rf := by
  obtain ⟨-, e⟩ | ⟨op, rd, j, k, f, -, -, -, -, -, e, -⟩ := issuePhase_cases i s <;> simp [e]

@[simp] theorem issuePhase_head : (issuePhase i s).head = s.head := by
  obtain ⟨-, e⟩ | ⟨op, rd, j, k, f, -, -, -, -, -, e, -⟩ := issuePhase_cases i s <;> simp [e]

theorem issuePhase_pc : (issuePhase i s).pc = if issuesNow i s then s.pc + 1 else s.pc := by
  obtain ⟨hi, e⟩ | ⟨op, rd, j, k, f, hi, -, -, -, -, e, -⟩ := issuePhase_cases i s <;> simp [hi, e]

theorem issuePhase_tail :
    (issuePhase i s).tail = if issuesNow i s then (s.tail + 1) % s.cfg.robSize else s.tail := by
  obtain ⟨hi, e⟩ | ⟨op, rd, j, k, f, hi, -, -, -, -, e, -⟩ := issuePhase_cases i s <;> simp [hi, e]

theorem issuePhase_count : (issuePhase i s).count = s.count + if issuesNow i s then 1 else 0 := by
  obtain ⟨hi, e⟩ | ⟨op, rd, j, k, f, hi, -, -, -, -, e, -⟩ := issuePhase_cases i s <;> simp [hi, e]

@[simp] theorem issuePhase_rob_length : (issuePhase i s).rob.length = s.rob.length := by
  obtain ⟨-, e⟩ | ⟨op, rd, j, k, f, -, -, -, -, -, e, -⟩ := issuePhase_cases i s <;> simp [e, allocate_eq]

/-- Nothing is in flight after Issue exactly when nothing was and nothing issues. -/
theorem issuePhase_count_eq_zero_iff :
    (issuePhase i s).count = 0 ↔ s.count = 0 ∧ issuesNow i s = false := by
  rw [issuePhase_count]
  cases issuesNow i s <;> simp

/-- Issue changes no entry but the one it allocates. -/
theorem issuePhase_robAt {n : Nat} (hn : ¬(issuesNow i s = true ∧ n = s.tail)) :
    (issuePhase i s).robAt n = s.robAt n := by
  obtain ⟨-, e⟩ | ⟨op, rd, j, k, f, hi, -, -, -, -, e, -⟩ := issuePhase_cases i s
  · rw [e]
  · rw [e]
    exact robAt_allocate_ne op rd j k f n s fun ht => hn ⟨hi, ht⟩

/-- Issue changes no station but one, which it gives to the entry it allocates. -/
theorem issuePhase_rsAt (m : Nat) :
    (issuePhase i s).rsAt m = s.rsAt m ∨
      issuesNow i s = true ∧ ((issuePhase i s).rsAt m).dest = s.tail := by
  obtain ⟨-, e⟩ | ⟨op, rd, j, k, f, hi, -, -, -, hf, e, -⟩ := issuePhase_cases i s
  · exact .inl (by rw [e])
  · rw [e, rsAt_allocate hf]
    split
    · exact .inr ⟨hi, rfl⟩
    · exact .inl rfl

end Issue

variable {i : Instr} {s : State}

/-- Issue allocates only while the buffer is not full (R103). -/
theorem count_lt_of_issuesNow (h : s.CoreWF) (hi : issuesNow i s = true) : s.count < s.cfg.robSize := by
  obtain ⟨hn, -⟩ | ⟨op, rd, j, k, f, -, -, -, hfull, -⟩ := issuePhase_cases i s
  · simp [hn] at hi
  · exact count_lt_of_not_robFull h hfull

/-- Issue never takes an entry that is in use. -/
theorem not_allocated_of_inuse (h : s.CoreWF) {n : Nat} (hu : (s.robAt n).inuse = true) :
    ¬(issuesNow i s = true ∧ n = s.tail) :=
  fun ⟨hi, hn⟩ => ne_tail_of_inuse h (count_lt_of_issuesNow h hi) hu hn

/-- The register a cycle commits is the destination of the entry at the head after Issue, if anything is in
flight there. -/
theorem committedReg_eq (h : s.CoreWF) :
    committedReg i s =
      if (issuePhase i s).count = 0 then none else some ((issuePhase i s).robAt s.head).dest := by
  simp only [committedReg, issuePhase_count_eq_zero_iff]
  by_cases h0 : s.count = 0
  · obtain ⟨hi, -⟩ | ⟨op, rd, j, k, f, hi, -, hd, -, -, e, -⟩ := issuePhase_cases i s
    · simp [h0, hi]
    · simp [h0, hi, hd, e, robAt_allocate h, tail_eq_head h h0]
  · simp [h0, issuePhase_robAt i s (not_allocated_of_inuse h ((head_inuse_iff h).mpr h0))]

end Sys2Proof.Machine
end

section
/-! The rest of the cycle, from the state after Issue: an in-flight head is always done by Commit, since it waits on
no older producer (R135, R137, R198), so the head moves exactly when something is in flight. -/

namespace Sys2Proof.Machine

variable {s : State}

/-! ### Execute, entry by entry -/

@[simp] theorem executeEntry_op (k : Nat) (e : RobEntry) : (s.executeEntry k e).op = e.op := by
  unfold State.executeEntry; split <;> rfl

@[simp] theorem executeEntry_dest (k : Nat) (e : RobEntry) : (s.executeEntry k e).dest = e.dest := by
  unfold State.executeEntry; split <;> rfl

@[simp] theorem executeEntry_inuse (k : Nat) (e : RobEntry) : (s.executeEntry k e).inuse = e.inuse := by
  unfold State.executeEntry; split <;> rfl

theorem executeEntry_ready (k : Nat) (e : RobEntry) :
    (s.executeEntry k e).ready = (e.ready || (s.resultFor k).isSome) := by
  unfold State.executeEntry
  cases s.resultFor k <;> simp [RobEntry.complete]

theorem executeEntry_of_none {k : Nat} (h : s.resultFor k = none) (e : RobEntry) : s.executeEntry k e = e := by
  simp [State.executeEntry, h]

theorem eligible_iff (st : Station) :
    st.eligible = true ↔ st.occ = true ∧ st.j.qv = false ∧ st.k.qv = false := by
  simp [Station.eligible, and_assoc]

/-- The station of the head entry holds no tag: a tag would name an entry older than the oldest (W6, R198). -/
theorem head_station_eligible (h : s.CoreWF) {m : Nat} (hm : m < s.cfg.rsSize) (hf : s.feeds m s.head = true) :
    (s.rsAt m).eligible = true := by
  rw [feeds_iff] at hf
  obtain ⟨ho, hd⟩ := hf
  have hnone : ∀ x : OperandFields, s.TagOk x s.head → x.qv = false := by
    intro x hx
    by_contra hq
    obtain ⟨-, -, -, hage⟩ := (isOlderProducer_iff _ _ _).mp (hx (by simpa using hq))
    rw [age_head h.head_lt] at hage
    exact Nat.not_lt_zero _ hage
  obtain ⟨hj, hk⟩ := h.w6 m hm ho
  rw [hd] at hj hk
  exact (eligible_iff _).mpr ⟨ho, hnone _ hj, hnone _ hk⟩

/-- An in-use, unready head gets its value in this cycle's Execute (R121, R122). -/
theorem resultFor_head_isSome (h : s.CoreWF) (hu : (s.robAt s.head).inuse = true)
    (hr : (s.robAt s.head).ready = false) : (s.resultFor s.head).isSome = true := by
  obtain ⟨m, hm, hf, huniq⟩ := h.w5 _ h.head_lt hu hr
  obtain ⟨ho, hd⟩ := (feeds_iff _ _ _).mp hf
  have hres : s.resultFor s.head = (s.rsAt m).result := by
    rw [← hd]
    refine resultFor_some (h.rs_length ▸ hm) (head_station_eligible h hm hf) fun m' hm' he hd' => ?_
    exact huniq m' (h.rs_length ▸ hm') ((feeds_iff _ _ _).mpr ⟨((eligible_iff _).mp he).1, hd'.trans hd⟩)
  obtain ⟨hrob, hrs⟩ := h.w7
  rw [hres, Station.result, Option.isSome_map, hrs m hm ho, hd]
  exact (hrob _ h.head_lt hu).1

/-- After Execute the head is in use and ready exactly when something is in flight (R198). -/
theorem execute_head_done_iff (h : s.CoreWF) : ((execute s).robAt s.head).done = true ↔ s.count ≠ 0 := by
  rw [robAt_execute s _ (h.rob_length ▸ h.head_lt), ← head_inuse_iff h]
  simp only [RobEntry.done, executeEntry_inuse, executeEntry_ready, Bool.and_eq_true, Bool.or_eq_true,
    and_iff_left_iff_imp]
  intro hu
  cases hr : (s.robAt s.head).ready with
  | true => exact .inl rfl
  | false => exact .inr (resultFor_head_isSome h hu hr)

/-! ### The state at the end of the cycle -/

theorem robAt_finishCycle (s : State) (k : Nat) :
    (finishCycle s).robAt k = (commit (broadcast (execute s))).robAt k := rfl

theorem regAt_finishCycle (s : State) (r : RegIdx) :
    (finishCycle s).regAt r = (commit (broadcast (execute s))).regAt r := rfl

theorem regAt_broadcast_execute (s : State) (r : RegIdx) : (broadcast (execute s)).regAt r = s.regAt r := rfl

@[simp] theorem finishCycle_pc (s : State) : (finishCycle s).pc = s.pc := by
  simp [finishCycle]

@[simp] theorem finishCycle_tail (s : State) : (finishCycle s).tail = s.tail := by
  simp [finishCycle]

@[simp] theorem commit_rf_length (s : State) : (commit s).rf.length = s.rf.length := by
  obtain ⟨-, e⟩ | ⟨-, e⟩ := commit_cases s <;> simp [e]

@[simp] theorem finishCycle_rf_length (s : State) : (finishCycle s).rf.length = s.rf.length := by
  simp [finishCycle]

/-- Commit moves the head exactly when the head entry is done. -/
theorem commit_head (s : State) :
    (commit s).head = if (s.robAt s.head).done then (s.head + 1) % s.cfg.robSize else s.head := by
  obtain ⟨hd, e⟩ | ⟨hd, e⟩ := commit_cases s <;> simp [hd, e]

theorem commit_of_not_done (h : (s.robAt s.head).done = false) : commit s = s := by
  simp [commit, h]

theorem finishCycle_head (h : s.CoreWF) :
    (finishCycle s).head = if s.count = 0 then s.head else (s.head + 1) % s.cfg.robSize := by
  have hdone := execute_head_done_iff h
  simp only [finishCycle, cycleInc_head, commit_head, robAt_broadcast, broadcast_head, broadcast_cfg, execute_head,
    execute_cfg, hdone, ite_not]

/-- The end of a cycle writes no register but the destination of an in-flight head (R135, R136). -/
theorem finishCycle_regAt (h : s.CoreWF) {r : RegIdx} (hr : s.count ≠ 0 → (s.robAt s.head).dest ≠ r) :
    (finishCycle s).regAt r = s.regAt r := by
  rw [regAt_finishCycle]
  by_cases h0 : s.count = 0
  · have hnd : ((execute s).robAt s.head).done = false := by
      simpa [h0] using execute_head_done_iff h
    rw [commit_of_not_done (s := broadcast (execute s)) hnd, regAt_broadcast_execute]
  · refine (regAt_commit_ne _ r ?_).trans (regAt_broadcast_execute s r)
    have := hr h0
    rwa [robAt_broadcast, broadcast_head, execute_head, robAt_execute s _ (h.rob_length ▸ h.head_lt),
      executeEntry_dest]

/-- Commit changes neither op nor dest of an entry (R135). -/
theorem robAt_commit_op_dest {k : Nat} (hk : k < s.rob.length) :
    ((commit s).robAt k).op = (s.robAt k).op ∧ ((commit s).robAt k).dest = (s.robAt k).dest := by
  by_cases hh : k = s.head
  · subst hh
    cases hd : (s.robAt s.head).done with
    | true => rw [robAt_commit_head s hk hd]; exact ⟨rfl, rfl⟩
    | false => rw [commit_of_not_done hd]; exact ⟨rfl, rfl⟩
  · rw [robAt_commit_ne s k hh]
    exact ⟨rfl, rfl⟩

/-- The end of a cycle changes neither op nor dest of an entry (R122, R135). -/
theorem finishCycle_robAt_op_dest {k : Nat} (hk : k < s.rob.length) :
    ((finishCycle s).robAt k).op = (s.robAt k).op ∧ ((finishCycle s).robAt k).dest = (s.robAt k).dest := by
  have hc := robAt_commit_op_dest (s := broadcast (execute s)) (k := k) (by simpa using hk)
  rwa [robAt_broadcast, robAt_execute s k hk, executeEntry_op, executeEntry_dest] at hc

/-- The end of a cycle changes no entry that is not done and that no eligible station computes for. -/
theorem finishCycle_robAt_of_unfed {k : Nat} (hk : k < s.rob.length) (hd : (s.robAt k).done = false)
    (hunfed : ∀ m, m < s.rs.length → (s.rsAt m).eligible = true → (s.rsAt m).dest ≠ k) :
    (finishCycle s).robAt k = s.robAt k := by
  have hex : (execute s).robAt k = s.robAt k := by
    rw [robAt_execute s k hk, executeEntry_of_none (resultFor_none hunfed)]
  rw [robAt_finishCycle]
  by_cases hh : k = s.head
  · subst hh
    rw [commit_of_not_done (s := broadcast (execute s)) (by rwa [← hex] at hd), robAt_broadcast, hex]
  · rw [robAt_commit_ne (broadcast (execute s)) k hh, robAt_broadcast, hex]

end Sys2Proof.Machine
end

section
/-! What a cycle changes and what it leaves: scheduler registers, register file and reorder buffer. -/

namespace Sys2Proof.Machine

/-- Settles O25: whether or not Issue allocates it writes no register, nor do Execute, Broadcast and CycleInc. -/
theorem onlyCommitWritesRegisters : Obligations.OnlyCommitWritesRegisters := fun i s =>
  ⟨issuePhase_rf i s, execute_rf s, broadcast_rf s, cycleInc_rf s⟩

/-- Settles O33: Issue alone moves pc and tail, and the head moves exactly when something is in flight after
Issue. -/
theorem schedulerRegistersMove : Obligations.SchedulerRegistersMove := by
  intro i s t h
  obtain ⟨hs, hi, rfl⟩ := (exec_next_iff i s t).mp h
  refine ⟨?_, ?_, ?_⟩
  · rw [finishCycle_tail, issuePhase_tail]
  · rw [finishCycle_pc, issuePhase_pc]
  · simp only [finishCycle_head (issuePhase_coreWF hs hi), issuePhase_count_eq_zero_iff, issuePhase_head,
      issuePhase_cfg]

/-- Settles O27: Issue writes no register, and Commit writes only the destination of the head it finds after
Issue, which is `committedReg`. -/
theorem registerFrame : Obligations.RegisterFrame := by
  intro i s t h
  obtain ⟨hs, hi, rfl⟩ := (exec_next_iff i s t).mp h
  refine ⟨by rw [finishCycle_rf_length, issuePhase_rf], fun r hr => ?_⟩
  rw [committedReg_eq hs] at hr
  have hne : (issuePhase i s).count ≠ 0 → ((issuePhase i s).robAt (issuePhase i s).head).dest ≠ r := by
    intro h0 e
    rw [issuePhase_head] at e
    exact hr (by rw [if_neg h0, e])
  calc (finishCycle (issuePhase i s)).regAt r
      _ = (issuePhase i s).regAt r := finishCycle_regAt (issuePhase_coreWF hs hi) hne
      _ = s.regAt r := by simp [State.regAt]

/-- Settles O31: an entry Issue does not allocate reaches Execute as it was, and only a value computed for it or
its own retirement changes it after that, neither of them op or dest. -/
theorem reorderBufferFrame : Obligations.ReorderBufferFrame := by
  intro i s t k h hk
  obtain ⟨hs, hi, rfl⟩ := (exec_next_iff i s t).mp h
  have hs1 := issuePhase_coreWF hs hi
  have hk1 : k < (issuePhase i s).rob.length := by rwa [issuePhase_rob_length, hs.rob_length]
  refine ⟨fun hna => ?_, fun hna hu => ?_, fun hu hr hwait => ?_⟩
  · have := finishCycle_robAt_op_dest hk1
    rwa [issuePhase_robAt i s hna] at this
  · have he := issuePhase_robAt i s hna
    refine (finishCycle_robAt_of_unfed hk1 (by simp [RobEntry.done, he, hu]) ?_).trans he
    rintro m hm hel rfl
    -- the destination of an occupied station is in use (W4)
    obtain ⟨-, hu1, -⟩ := hs1.w4 m (hs1.rs_length ▸ hm) ((eligible_iff _).mp hel).1
    simp [he, hu] at hu1
  · have hna := not_allocated_of_inuse (i := i) hs hu
    have he := issuePhase_robAt i s hna
    refine (finishCycle_robAt_of_unfed hk1 (by simp [RobEntry.done, he, hr]) ?_).trans he
    rintro m hm hel rfl
    obtain hst | ⟨hnow, hd⟩ := issuePhase_rsAt i s m
    · rw [hst] at hel hwait
      have hm' : m < s.cfg.rsSize := by simpa [hs1.rs_length] using hm
      have := hwait m hm' ((feeds_iff _ _ _).mpr ⟨((eligible_iff _).mp hel).1, rfl⟩)
      simp [hel] at this
    · exact hna ⟨hnow, hd⟩

end Sys2Proof.Machine
end

section
/-! The pc as a number (R26, R27): W9 keeps a word after every instruction that issues. -/

namespace Sys2Proof.Machine

/-- A HALT's word decodes to HALT, whatever its other bits and NREGS (R74, R76). -/
theorem decode_of_isHaltWord {w : Diw} (h : isHaltWord w = true) (n : Nat) : decode n w = .ok .halt := by
  have hop : opField w = 5 := by simpa [isHaltWord, haltCode] using h
  simp [decode, hop, haltCode]

/-- A word that decodes to HALT is a HALT's word: under every other code `decode` names another instruction or
none. -/
theorem isHaltWord_of_decode {w : Diw} {n : Nat} (h : decode n w = .ok .halt) : isHaltWord w = true := by
  unfold decode checkRegs at h
  repeat' split at h
  all_goals simp_all [isHaltWord]

theorem issuesNow_halt (s : State) : issuesNow .halt s = false := rfl

/-- While the word at pc is no HALT, the next index still holds a word: a HALT lies ahead (W9). -/
theorem pc_succ_lt_of_not_halt {s : State} {w : Diw} (h9 : s.W9) (hw : s.im[s.pc.toNat]? = some w)
    (hh : isHaltWord w = false) : s.pc.toNat + 1 < s.im.length := by
  obtain ⟨-, a, ha, hpa, hhalt⟩ := h9
  have hne : a ≠ s.pc.toNat := by
    rintro rfl
    simp [List.getD_eq_getElem?_getD, hw, hh] at hhalt
  omega

/-- Settles O40: an instruction that issues is no HALT, so a HALT lies after it, and the sequence has at most 2^32
words. -/
theorem pcNeverWraps : Obligations.PcNeverWraps := by
  intro s t h
  obtain ⟨⟨hs, h9⟩, w, i, hw, hd, -, rfl⟩ := (step_next_iff s t).mp h
  obtain ⟨hpc, -⟩ := id h9
  refine ⟨w, i, hw, hd, ?_⟩
  rw [finishCycle_pc, issuePhase_pc]
  cases hi : issuesNow i s with
  | false => exact ⟨rfl, hpc⟩
  | true =>
    have hnot : isHaltWord w = false := by
      by_contra hh
      have hok := decode_of_isHaltWord (by simpa using hh) s.cfg.nregs
      obtain rfl : i = .halt := Verdict.ok.inj (hd.symm.trans hok)
      simp [issuesNow_halt] at hi
    have hlt := pc_succ_lt_of_not_halt h9 hw hnot
    obtain ⟨-, -, -, -, him, -⟩ := hs.shape
    have hnum : (s.pc + 1).toNat = s.pc.toNat + 1 := by
      rw [BitVec.toNat_add]
      exact Nat.mod_eq_of_lt (hlt.trans_le him)
    rw [if_pos rfl, if_pos rfl, hnum]
    exact ⟨rfl, hlt⟩

end Sys2Proof.Machine
end

section
/-! The reset state (R45, R190), and that it is well formed (R44, R93). -/

namespace Sys2Proof.Machine

@[simp] theorem robAt_resetWith (p : Params) (im : List Diw) (k : Nat) :
    (State.resetWith p im).robAt k = RobEntry.zero := by
  by_cases hk : k < p.robSize <;> simp [State.robAt, State.resetWith, List.getD_eq_getElem?_getD, hk]

@[simp] theorem rsAt_resetWith (p : Params) (im : List Diw) (i : Nat) :
    (State.resetWith p im).rsAt i = Station.zero := by
  by_cases hi : i < p.rsSize <;> simp [State.rsAt, State.resetWith, List.getD_eq_getElem?_getD, hi]

/-- Reset meets every clause but W9 for every parameter choice: no entry is in use and no station occupied. -/
theorem resetWith_coreWF {p : Params} {im : List Diw} (hp : p.Ok) (him : im.length ≤ 2 ^ 32) :
    (State.resetWith p im).CoreWF := by
  obtain ⟨-, -, hrob, -, hrf⟩ := id hp
  have hfree : ∀ i, ((State.resetWith p im).rsAt i).occ ≠ true := by simp [Station.zero]
  have hunused : ∀ k, ((State.resetWith p im).robAt k).inuse ≠ true := by simp [RobEntry.zero]
  refine ⟨⟨hp, hrf, List.length_replicate, List.length_replicate, him, fun i _ => ?_⟩,
    ⟨Nat.zero_le _, hrob, hrob, (Nat.zero_mod _).symm⟩,
    fun k _ => iff_of_false (hunused k) (Nat.not_lt_zero _), fun k _ hr => ?_,
    fun i _ ho => absurd ho (hfree i), fun k _ hu => absurd hu (hunused k),
    fun i _ ho => absurd ho (hfree i),
    ⟨fun k _ hu => absurd hu (hunused k), fun i _ ho => absurd ho (hfree i)⟩,
    fun i _ ho => absurd ho (hfree i)⟩
  · rw [rsAt_resetWith]
    exact ⟨Nat.two_pow_pos _, Nat.two_pow_pos _, Nat.two_pow_pos _⟩
  · simp [RobEntry.zero] at hr

/-- A sequence the loader may supply holds a HALT. -/
theorem exists_halt_of_programOf {n : Nat} {im : List Diw} (h : (programOf n im).isSome = true) :
    ∃ w ∈ im, isHaltWord w = true := by
  induction im with
  | nil => simp [programOf] at h
  | cons w ws ih =>
    by_cases hh : isHaltWord w = true
    · exact ⟨w, List.mem_cons_self, hh⟩
    · suffices hws : (programOf n ws).isSome = true by
        obtain ⟨v, hv, hvh⟩ := ih hws
        exact ⟨v, List.mem_cons_of_mem w hv, hvh⟩
      unfold programOf at h
      split at h
      · exact absurd (isHaltWord_of_decode ‹_›) hh
      · simpa using h
      · simp at h

/-- Settles O46: a HALT of the sequence lies ahead of pc 0. -/
theorem loadedResetWellFormed : Obligations.LoadedResetWellFormed := by
  rintro p im hp ⟨hprog, hlen⟩
  refine ⟨resetWith_coreWF hp hlen, (haltAhead_iff _).mp ?_⟩
  have hany : im.any isHaltWord = true := List.any_eq_true.mpr (exists_halt_of_programOf hprog)
  exact hany

/-- Settles O45: the reference parameters meet R11, and the empty sequence is short enough. -/
theorem referenceResetWellFormed : Obligations.ReferenceResetWellFormed :=
  resetWith_coreWF (by decide) (Nat.zero_le _)

/-- Settles O44: the scalar fields by definition, and each entry and station is the zero one. -/
theorem resetValues : Obligations.ResetValues := by
  intro p im hp
  obtain ⟨-, -, -, -, hrf⟩ := hp
  refine ⟨fun r hr => ?_, hrf, rfl, rfl, rfl, rfl, rfl, List.length_replicate, List.length_replicate,
    fun e he => ?_, fun st hst => ?_⟩
  · have hlt : r.toNat < p.rfInit.length := hrf ▸ hr
    simp [State.regAt, State.resetWith, List.getD_eq_getElem?_getD, hlt]
  · rw [List.eq_of_mem_replicate he]
    exact ⟨rfl, rfl, rfl, rfl, rfl⟩
  · rw [List.eq_of_mem_replicate hst]
    exact ⟨rfl, rfl, rfl, rfl, rfl, rfl, rfl, rfl, rfl⟩

end Sys2Proof.Machine
end

section
/-! The decoder and the encoder (R65 to R80). The decoder is one equation for each group of codes; a word's fields
and the encoder's words are numbers, so that reading a field of an encoded word is arithmetic. -/

namespace Sys2Proof

/-! ### The decoder, code by code -/

/-- The format-RR instruction of a code (R67, R70); only used for the codes 0 to 3. -/
def rrInstr (c : OpBits) (rd rj rk : RegIdx) : Instr :=
  if c.toNat = 0 then .add rd rj rk
  else if c.toNat = 1 then .sub rd rj rk
  else if c.toNat = 2 then .mul rd rj rk
  else .div rd rj rk

theorem rr_code_cases {c : OpBits} (h : c.toNat ≤ 3) : c = 0 ∨ c = 1 ∨ c = 2 ∨ c = 3 := by
  revert c
  decide

/-- Every word is of one of the four groups of codes (R70, R73). -/
theorem op_cases (w : Diw) :
    (opField w).toNat ≤ 3 ∨ opField w = 4 ∨ opField w = 5 ∨ (opField w = 6 ∨ opField w = 7) := by
  generalize opField w = c
  revert c
  decide

theorem decode_rr (n : Nat) {w : Diw} (h : (opField w).toNat ≤ 3) :
    decode n w = checkRegs n (rrInstr (opField w) (rdField w) (rjField w) (rkField w)) := by
  obtain h | h | h | h := rr_code_cases h <;> simp [decode, rrInstr, h]

theorem decode_loadImm (n : Nat) {w : Diw} (h : opField w = 4) :
    decode n w = checkRegs n (.loadImm (rdField w) (immField w)) := by
  simp [decode, h]

theorem decode_halt (n : Nat) {w : Diw} (h : opField w = 5) : decode n w = .ok .halt := by
  simp [decode, h, haltCode]

theorem decode_reserved (n : Nat) {w : Diw} (h : opField w = 6 ∨ opField w = 7) :
    decode n w = .invalid .unknownOperation := by
  obtain h | h := h <;> simp [decode, h, haltCode]

theorem checkRegs_of_wellFormed {n : Nat} {i : Instr} (h : i.wellFormed n = true) : checkRegs n i = .ok i :=
  if_pos h

theorem checkRegs_of_not_wellFormed {n : Nat} {i : Instr} (h : ¬ i.wellFormed n = true) :
    checkRegs n i = .invalid .registerOutOfRange :=
  if_neg h

theorem eq_of_checkRegs_eq_ok {n : Nat} {i j : Instr} (h : checkRegs n i = .ok j) : i = j := by
  by_cases hi : i.wellFormed n = true
  · exact Verdict.ok.inj ((checkRegs_of_wellFormed hi).symm.trans h)
  · cases (checkRegs_of_not_wellFormed hi).symm.trans h

theorem rrInstr_wellFormed_iff (n : Nat) (c : OpBits) (rd rj rk : RegIdx) :
    (rrInstr c rd rj rk).wellFormed n = true ↔ rd.toNat < n ∧ rj.toNat < n ∧ rk.toNat < n := by
  have hregs : (rrInstr c rd rj rk).regs = [rd, rj, rk] := by
    unfold rrInstr
    split_ifs <;> rfl
  simp [Instr.wellFormed, Machine.regsInRange_iff, hregs]

theorem loadImm_wellFormed_iff (n : Nat) (rd : RegIdx) (imm : Word) :
    (Instr.loadImm rd imm).wellFormed n = true ↔ rd.toNat < n := by
  simp [Instr.wellFormed, Machine.regsInRange_iff, Instr.regs]

/-- With all 32 registers, every instruction is well formed: a register field has 5 bits. -/
theorem wellFormed_32 (i : Instr) : i.wellFormed 32 = true :=
  (Machine.regsInRange_iff _ _).mpr fun r _ => r.isLt

/-! ### Fields and words as numbers -/

theorem opField_toNat (w : Diw) : (opField w).toNat = w.toNat / 2 ^ 61 := by
  rw [opField, BitVec.extractLsb'_toNat, Nat.shiftRight_eq_div_pow]
  omega

theorem rdField_toNat (w : Diw) : (rdField w).toNat = w.toNat / 2 ^ 56 % 32 := by
  rw [rdField, BitVec.extractLsb'_toNat, Nat.shiftRight_eq_div_pow]

theorem rjField_toNat (w : Diw) : (rjField w).toNat = w.toNat / 2 ^ 51 % 32 := by
  rw [rjField, BitVec.extractLsb'_toNat, Nat.shiftRight_eq_div_pow]

theorem rkField_toNat (w : Diw) : (rkField w).toNat = w.toNat / 2 ^ 46 % 32 := by
  rw [rkField, BitVec.extractLsb'_toNat, Nat.shiftRight_eq_div_pow]

theorem immField_toNat (w : Diw) : (immField w).toNat = w.toNat % 2 ^ 32 := by
  rw [immField, BitVec.extractLsb'_toNat, Nat.shiftRight_zero]

theorem placeOp_toNat (c : OpBits) : (placeOp c).toNat = c.toNat * 2 ^ 61 := by
  rw [placeOp, BitVec.toNat_shiftLeft, BitVec.toNat_setWidth, Nat.shiftLeft_eq]
  omega

theorem placeReg_toNat (r : RegIdx) {at0 : Nat} (h : at0 + 5 ≤ 64) :
    (placeReg r at0).toNat = r.toNat * 2 ^ at0 := by
  have hlt : r.toNat * 2 ^ at0 < 2 ^ 64 :=
    calc r.toNat * 2 ^ at0
        _ < 2 ^ 5 * 2 ^ at0 := Nat.mul_lt_mul_of_pos_right r.isLt (Nat.two_pow_pos at0)
        _ = 2 ^ (at0 + 5) := by rw [← Nat.pow_add, Nat.add_comm]
        _ ≤ 2 ^ 64 := Nat.pow_le_pow_right (by decide) h
  rw [placeReg, BitVec.toNat_shiftLeft, BitVec.toNat_setWidth, Nat.shiftLeft_eq,
    Nat.mod_eq_of_lt (by omega : r.toNat < 2 ^ 64), Nat.mod_eq_of_lt hlt]

/-- Placing a field below the lowest bit used so far adds it. -/
theorem toNat_or_of_dvd {x y : Diw} (p : Nat) (hx : 2 ^ p ∣ x.toNat) (hy : y.toNat < 2 ^ p) :
    (x ||| y).toNat = x.toNat + y.toNat := by
  obtain ⟨q, hq⟩ := hx
  rw [BitVec.toNat_or, hq, Nat.two_pow_add_eq_or_of_lt hy]

theorem encodeRR_toNat (c : OpBits) (rd rj rk : RegIdx) :
    (encodeRR c rd rj rk).toNat =
      c.toNat * 2 ^ 61 + rd.toNat * 2 ^ 56 + rj.toNat * 2 ^ 51 + rk.toNat * 2 ^ 46 := by
  have hc := placeOp_toNat c
  have hd := placeReg_toNat rd (at0 := 56) (by decide)
  have hj := placeReg_toNat rj (at0 := 51) (by decide)
  have hk := placeReg_toNat rk (at0 := 46) (by decide)
  have h1 := toNat_or_of_dvd (x := placeOp c) (y := placeReg rd 56) 61 (by omega) (by omega)
  have h2 := toNat_or_of_dvd (x := placeOp c ||| placeReg rd 56) (y := placeReg rj 51) 56 (by omega) (by omega)
  have h3 := toNat_or_of_dvd (x := placeOp c ||| placeReg rd 56 ||| placeReg rj 51) (y := placeReg rk 46) 51
    (by omega) (by omega)
  rw [encodeRR, h3, h2, h1, hc, hd, hj, hk]

theorem encode_loadImm_toNat (rd : RegIdx) (imm : Word) :
    (encode (.loadImm rd imm)).toNat = 4 * 2 ^ 61 + rd.toNat * 2 ^ 56 + imm.toNat := by
  have hc : (placeOp OpKind.loadImm.code).toNat = 4 * 2 ^ 61 := placeOp_toNat _
  have hd := placeReg_toNat rd (at0 := 56) (by decide)
  have hi : (imm.setWidth 64).toNat = imm.toNat := BitVec.toNat_setWidth_of_le (by decide)
  have h1 := toNat_or_of_dvd (x := placeOp OpKind.loadImm.code) (y := placeReg rd 56) 61 (by omega) (by omega)
  have h2 := toNat_or_of_dvd (x := placeOp OpKind.loadImm.code ||| placeReg rd 56) (y := imm.setWidth 64) 56
    (by omega) (by omega)
  rw [encode, h2, h1, hc, hd, hi]

/-- Settles O3: the placed fields do not overlap, so each word is the sum of its fields. -/
theorem encodeIsTheFormula : Obligations.EncodeIsTheFormula := fun rd rj rk imm =>
  ⟨encodeRR_toNat 0 rd rj rk, encodeRR_toNat 1 rd rj rk, encodeRR_toNat 2 rd rj rk, encodeRR_toNat 3 rd rj rk,
    encode_loadImm_toNat rd imm, placeOp_toNat haltCode, by decide, by decide⟩

/-! ### Decoding an encoded word -/

theorem opField_encodeRR (c : OpBits) (rd rj rk : RegIdx) : opField (encodeRR c rd rj rk) = c := by
  apply BitVec.eq_of_toNat_eq
  rw [opField_toNat, encodeRR_toNat]
  omega

theorem opField_encode_loadImm (rd : RegIdx) (imm : Word) : opField (encode (.loadImm rd imm)) = 4 := by
  apply BitVec.eq_of_toNat_eq
  rw [opField_toNat, encode_loadImm_toNat, show (4 : OpBits).toNat = 4 from rfl]
  omega

theorem rdField_encode_loadImm (rd : RegIdx) (imm : Word) : rdField (encode (.loadImm rd imm)) = rd := by
  apply BitVec.eq_of_toNat_eq
  rw [rdField_toNat, encode_loadImm_toNat]
  omega

theorem immField_encode_loadImm (rd : RegIdx) (imm : Word) : immField (encode (.loadImm rd imm)) = imm := by
  apply BitVec.eq_of_toNat_eq
  rw [immField_toNat, encode_loadImm_toNat]
  omega

theorem decode_encodeRR (n : Nat) {c : OpBits} (h : c.toNat ≤ 3) (rd rj rk : RegIdx) :
    decode n (encodeRR c rd rj rk) = checkRegs n (rrInstr c rd rj rk) := by
  have hop := opField_encodeRR c rd rj rk
  obtain ⟨hd, hj, hk⟩ := Laws.RegsAreFields.fields_of_rr c rd rj rk
  rw [decode_rr n (by rwa [hop]), hop, hd, hj, hk]

/-- Decoding an instruction's own word leaves only the range check of R76. -/
theorem decode_encode (n : Nat) (i : Instr) : decode n (encode i) = checkRegs n i := by
  cases i with
  | add rd rj rk => exact decode_encodeRR n (c := 0) (by decide) rd rj rk
  | sub rd rj rk => exact decode_encodeRR n (c := 1) (by decide) rd rj rk
  | mul rd rj rk => exact decode_encodeRR n (c := 2) (by decide) rd rj rk
  | div rd rj rk => exact decode_encodeRR n (c := 3) (by decide) rd rj rk
  | loadImm rd imm =>
    rw [decode_loadImm n (opField_encode_loadImm rd imm), rdField_encode_loadImm, immField_encode_loadImm]
  | halt => exact decode_halt n rfl

/-- Settles O4: the range check passes for a well-formed instruction. -/
theorem decodeEncodeRoundTrip : Obligations.DecodeEncodeRoundTrip := fun n i hi =>
  (decode_encode n i).trans (checkRegs_of_wellFormed hi)

/-- Settles O1: the decoder evaluated on the six words. -/
theorem specWordsDecode : Obligations.SpecWordsDecode := by
  unfold Obligations.SpecWordsDecode
  decide

/-! ### Decoding by numbers -/

/-- Settles O2: the numbers are the fields' values, and each clause is the decoder's equation for its codes. -/
theorem decodeByFields : Obligations.DecodeByFields := by
  intro n w op rd rj rk hop hrd hrj hrk
  rw [← opField_toNat] at hop
  rw [← rdField_toNat] at hrd
  rw [← rjField_toNat] at hrj
  rw [← rkField_toNat] at hrk
  have hcode : ∀ c : OpBits, op = c.toNat → opField w = c := fun c h =>
    BitVec.eq_of_toNat_eq (hop.symm.trans h)
  subst hrd hrj hrk
  simp only [BitVec.ofNat_toNat, BitVec.setWidth_eq]
  refine ⟨fun h3 hd hj hk => ?_, fun h3 hout => ?_, fun h4 hd => ?_, fun h4 hd => ?_, fun h5 => ?_, fun h67 => ?_⟩
  · rw [decode_rr n (hop ▸ h3), checkRegs_of_wellFormed ((rrInstr_wellFormed_iff ..).mpr ⟨hd, hj, hk⟩), hop]
    rfl
  · rw [decode_rr n (hop ▸ h3), checkRegs_of_not_wellFormed (mt (rrInstr_wellFormed_iff ..).mp hout)]
  · rw [decode_loadImm n (hcode 4 h4), checkRegs_of_wellFormed ((loadImm_wellFormed_iff ..).mpr hd)]
    rfl
  · rw [decode_loadImm n (hcode 4 h4), checkRegs_of_not_wellFormed (mt (loadImm_wellFormed_iff ..).mp hd)]
  · exact decode_halt n (hcode 5 h5)
  · exact decode_reserved n (h67.imp (hcode 6) (hcode 7))

end Sys2Proof
end

section
/-! The ignored bits of a word (R67 to R69, R74): a format's mask keeps exactly its fields. -/

namespace Sys2Proof

/-! ### Re-encoding a decoded word -/

/-- A field put back at its place is the word masked to that field. -/
theorem shiftLeft_extractLsb'_eq_and (w : Diw) (at0 len : Nat) :
    (w.extractLsb' at0 len).setWidth 64 <<< at0 = w &&& (BitVec.allOnes len).setWidth 64 <<< at0 := by
  ext i hi
  by_cases hlo : i < at0
  · simp [hlo]
  · have hsum : at0 + (i - at0) = i := by omega
    simp [hlo, hsum, hi, Bool.and_comm]

theorem placeOp_opField (w : Diw) : placeOp (opField w) = w &&& 0xE000000000000000 :=
  shiftLeft_extractLsb'_eq_and w 61 3

theorem placeReg_rdField (w : Diw) : placeReg (rdField w) 56 = w &&& 0x1F00000000000000 :=
  shiftLeft_extractLsb'_eq_and w 56 5

theorem placeReg_rjField (w : Diw) : placeReg (rjField w) 51 = w &&& 0x00F8000000000000 :=
  shiftLeft_extractLsb'_eq_and w 51 5

theorem placeReg_rkField (w : Diw) : placeReg (rkField w) 46 = w &&& 0x0007C00000000000 :=
  shiftLeft_extractLsb'_eq_and w 46 5

theorem setWidth_immField (w : Diw) : (immField w).setWidth 64 = w &&& 0x00000000FFFFFFFF :=
  (BitVec.shiftLeft_zero _).symm.trans (shiftLeft_extractLsb'_eq_and w 0 32)

theorem encodeRR_fields (w : Diw) :
    encodeRR (opField w) (rdField w) (rjField w) (rkField w) = w &&& 0xFFFFC00000000000 := by
  rw [encodeRR, placeOp_opField, placeReg_rdField, placeReg_rjField, placeReg_rkField]
  simp only [← BitVec.and_or_distrib_left]
  rfl

theorem encode_loadImm_fields {w : Diw} (h : opField w = 4) :
    encode (.loadImm (rdField w) (immField w)) = w &&& 0xFF000000FFFFFFFF := by
  have hop : placeOp OpKind.loadImm.code = w &&& 0xE000000000000000 := by
    rw [← placeOp_opField, h]
    rfl
  rw [encode, hop, placeReg_rdField, setWidth_immField]
  simp only [← BitVec.and_or_distrib_left]
  rfl

theorem encode_halt_fields {w : Diw} (h : opField w = 5) : encode .halt = w &&& 0xE000000000000000 := by
  rw [← placeOp_opField, h]
  rfl

theorem encode_rrInstr {c : OpBits} (h : c.toNat ≤ 3) (rd rj rk : RegIdx) :
    encode (rrInstr c rd rj rk) = encodeRR c rd rj rk := by
  obtain rfl | rfl | rfl | rfl := rr_code_cases h <;> rfl

theorem usedMask_rrInstr (c : OpBits) (rd rj rk : RegIdx) :
    usedMask (rrInstr c rd rj rk) = 0xFFFFC00000000000 := by
  unfold rrInstr
  split_ifs <;> rfl

/-- Settles O5: an instruction decoded from a word has the word's fields, and each field put back at its place is
the word masked to it. -/
theorem encodeKeepsTheUsedBits : Obligations.EncodeKeepsTheUsedBits := by
  intro n w i h
  obtain hop | hop | hop | hop := op_cases w
  · rw [decode_rr n hop] at h
    obtain rfl := eq_of_checkRegs_eq_ok h
    rw [encode_rrInstr hop, usedMask_rrInstr, encodeRR_fields]
  · rw [decode_loadImm n hop] at h
    obtain rfl := eq_of_checkRegs_eq_ok h
    exact encode_loadImm_fields hop
  · rw [decode_halt n hop] at h
    obtain rfl := Verdict.ok.inj h
    exact encode_halt_fields hop
  · rw [decode_reserved n hop] at h
    cases h

/-- The assembler writes 0 in each ignored bit: an instruction's word decodes to it, so O5 masks it to itself. -/
theorem encode_and_ignored (i : Instr) : encode i &&& ~~~ usedMask i = 0 := by
  have hself : encode i = encode i &&& usedMask i :=
    encodeKeepsTheUsedBits 32 (encode i) i (decodeEncodeRoundTrip 32 i (wellFormed_32 i))
  rw [hself, BitVec.and_assoc, BitVec.and_not_self]
  exact BitVec.and_zero

/-! ### Words that agree on the used bits -/

/-- Two words that agree under a mask agree in every field the mask covers. -/
theorem extractLsb'_eq_of_and_eq {w w' m : Diw} {at0 len : Nat} (h : w' &&& m = w &&& m)
    (hm : m.extractLsb' at0 len = BitVec.allOnes len) : w'.extractLsb' at0 len = w.extractLsb' at0 len := by
  have hf := congrArg (BitVec.extractLsb' at0 len) h
  simpa only [BitVec.extractLsb'_and, hm, BitVec.and_allOnes] using hf

/-- The decoder reads no ignored bit. -/
theorem decode_eq_of_and_wordMask_eq (n : Nat) {w w' : Diw} (h : w' &&& wordMask w = w &&& wordMask w) :
    decode n w' = decode n w := by
  have hop : opField w' = opField w := by
    refine extractLsb'_eq_of_and_eq h ?_
    unfold wordMask
    split_ifs <;> rfl
  obtain hw | hw | hw | hw := op_cases w
  · rw [wordMask, if_pos hw] at h
    have hd : rdField w' = rdField w := extractLsb'_eq_of_and_eq h rfl
    have hj : rjField w' = rjField w := extractLsb'_eq_of_and_eq h rfl
    have hk : rkField w' = rkField w := extractLsb'_eq_of_and_eq h rfl
    rw [decode_rr n hw, decode_rr n (hop ▸ hw), hop, hd, hj, hk]
  · rw [wordMask, hw, if_neg (by decide), if_pos rfl] at h
    have hd : rdField w' = rdField w := extractLsb'_eq_of_and_eq h rfl
    have hi : immField w' = immField w := extractLsb'_eq_of_and_eq h rfl
    rw [decode_loadImm n hw, decode_loadImm n (hop.trans hw), hd, hi]
  · rw [decode_halt n hw, decode_halt n (hop.trans hw)]
  · rw [decode_reserved n hw, decode_reserved n (by rwa [hop])]

end Sys2Proof
end

section
/-! A cycle does not read the instruction sequence but for fetching, and fetching reads it through the decoder only
(R51, R62, R74, R101): machines whose sequences decode alike step alike. -/

namespace Sys2Proof.Machine

/-! ### The phases -/

/-- The state with another instruction sequence. -/
abbrev State.withIm (s : State) (im : List Diw) : State := { s with im := im }

section WithIm

variable (im : List Diw) (s : State)

theorem issue_withIm (op : OpKind) (rd : RegIdx) (j k : Operand) :
    issue op rd j k (s.withIm im) = (issue op rd j k s).withIm im := by
  have hfull : (s.withIm im).robFull = s.robFull := rfl
  have hfree : (s.withIm im).freeStation = s.freeStation := rfl
  simp only [issue, hfull, hfree]
  cases s.robFull <;> cases s.freeStation <;> rfl

theorem issuePhase_withIm (i : Instr) : issuePhase i (s.withIm im) = (issuePhase i s).withIm im := by
  cases i with
  | halt => rfl
  | _ => exact issue_withIm im s _ _ _ _

theorem commit_withIm : commit (s.withIm im) = (commit s).withIm im := by
  have hhead : (s.withIm im).robAt s.head = s.robAt s.head := rfl
  simp only [commit, hhead]
  cases (s.robAt s.head).done <;> rfl

theorem finishCycle_withIm : finishCycle (s.withIm im) = (finishCycle s).withIm im :=
  congrArg cycleInc (commit_withIm im (broadcast (execute s)))

/-- Every clause but W9 reads only the length of the sequence. -/
theorem coreOk_withIm (hlen : im.length = s.im.length) : (s.withIm im).coreOk = s.coreOk := by
  rw [Bool.eq_iff_iff, coreOk_iff, coreOk_iff]
  exact and_congr_left' (by simp only [State.Shape, hlen]; rfl)

/-! ### The step -/

/-- An outcome with another instruction sequence in its next state, if it has one. -/
def outcomeWithIm (im : List Diw) : Host.Outcome State Fault Refusal → Host.Outcome State Fault Refusal
  | .next t => .next (t.withIm im)
  | .fault r => .fault r
  | .refused r => .refused r

theorem exec_eq_runCycle (i : Instr) (s : State) : exec i s = runCycle i.regs (issuePhase i) s := by
  cases i <;> rfl

theorem exec_withIm (i : Instr) (hlen : im.length = s.im.length) :
    exec i (s.withIm im) = outcomeWithIm im (exec i s) := by
  simp only [exec_eq_runCycle, runCycle, coreOk_withIm im s hlen, issuePhase_withIm, finishCycle_withIm]
  split_ifs <;> rfl

theorem isHaltWord_eq_decode (n : Nat) (w : Diw) : isHaltWord w = (decode n w == .ok .halt) := by
  rw [Bool.eq_iff_iff, beq_iff_eq]
  exact ⟨fun h => decode_of_isHaltWord h n, isHaltWord_of_decode⟩

section DecodesAlike

variable {im s}
variable (h : im.map (decode s.cfg.nregs) = s.im.map (decode s.cfg.nregs))

include h

theorem length_of_decodesAlike : im.length = s.im.length := by
  simpa using congrArg List.length h

theorem haltAhead_withIm : (s.withIm im).haltAhead = s.haltAhead := by
  have hany : ∀ l : List Diw, (l.drop s.pc.toNat).any isHaltWord =
      ((l.map (decode s.cfg.nregs)).drop s.pc.toNat).any (· == .ok .halt) := by
    intro l
    rw [← List.map_drop, List.any_map]
    exact congrArg _ (funext (isHaltWord_eq_decode s.cfg.nregs))
  simp only [State.haltAhead, hany, h]

/-- Fetching sees the decoded sequence only. -/
theorem fetch_withIm : fetch (s.withIm im) = fetch s := by
  have hstart : (s.withIm im).startRefusal = s.startRefusal := by
    simp only [State.startRefusal, coreOk_withIm im s (length_of_decodesAlike h), haltAhead_withIm h]
  have hword : (im[s.pc.toNat]?).map (decode s.cfg.nregs) = (s.im[s.pc.toNat]?).map (decode s.cfg.nregs) := by
    rw [← List.getElem?_map, ← List.getElem?_map, h]
  simp only [fetch, hstart, State.imRead]
  cases s.startRefusal with
  | some why => rfl
  | none =>
    cases hw : s.im[s.pc.toNat]? with
    | none =>
      have hw' : im[s.pc.toNat]? = none := by simpa [hw] using hword
      rw [hw']
    | some w =>
      obtain ⟨w', hw', hd⟩ :
          ∃ w', im[s.pc.toNat]? = some w' ∧ decode s.cfg.nregs w' = decode s.cfg.nregs w := by
        simpa [hw] using hword
      simp only [hw', decodeFetched, hd]

/-- Machines whose sequences decode alike step alike. -/
theorem step_withIm : step (s.withIm im) = outcomeWithIm im (step s) := by
  simp only [step, fetch_withIm h]
  cases fetch s with
  | instr i => exact exec_withIm im s i (length_of_decodesAlike h)
  | refused why => rfl

end DecodesAlike

end WithIm

/-! ### One word replaced -/

/-- Replacing a word by one that decodes alike leaves the decoded sequence. -/
theorem map_set_of_eq {α β : Type} {f : α → β} {l : List α} {a : Nat} {x y : α} (hx : l[a]? = some x)
    (hf : f y = f x) : (l.set a y).map f = l.map f := by
  obtain ⟨ha, rfl⟩ := List.getElem?_eq_some_iff.mp hx
  rw [List.map_set, hf, ← List.getElem_map f (h := by simpa using ha), List.set_getElem_self]

/-- Settles O6: the decoder reads no ignored bit, and a step reads a word through the decoder only. -/
theorem ignoredBitsBehaveTheSame : Obligations.IgnoredBitsBehaveTheSame := by
  refine ⟨fun n w w' h => decode_eq_of_and_wordMask_eq n h, fun w w' s a h hw => ?_, encode_and_ignored⟩
  have hstep : step (s.withIm (s.im.set a w')) = outcomeWithIm (s.im.set a w') (step s) :=
    step_withIm (map_set_of_eq hw (decode_eq_of_and_wordMask_eq s.cfg.nregs h))
  constructor
  · intro t ht
    rw [hstep, ht]
    rfl
  · intro r hr
    rw [hstep, hr]
    rfl

end Sys2Proof.Machine
end

section
/-! The step of a well-formed state (R85, R96), the ports (R88, R89) and the clock edge (R90). -/

namespace Sys2Proof.Machine

/-! ### The step -/

/-- A step of a well-formed state whose word at pc decodes: the rest of the cycle run on the Issue phase. -/
theorem step_eq_next {s : State} {w : Diw} {i : Instr} (h : s.WF) (hw : s.im[s.pc.toNat]? = some w)
    (hd : decode s.cfg.nregs w = .ok i) : step s = .next (finishCycle (issuePhase i s)) :=
  (step_next_iff s _).mpr ⟨h, w, i, hw, hd, decode_ok_wellFormed hd, rfl⟩

/-- Settles O36: a completed step has decoded its word, and a decoded instruction uses only registers that exist. -/
theorem stepCompletesOnWellFormedStates : Obligations.StepCompletesOnWellFormedStates := by
  intro s h
  constructor
  · rintro ⟨t, ht⟩
    obtain ⟨-, w, i, hw, hd, -⟩ := (step_next_iff s t).mp ht
    exact ⟨w, i, hw, hd⟩
  · rintro ⟨w, i, hw, hd⟩
    exact ⟨_, step_eq_next h hw hd⟩

/-- Settles O35: `step` and `exec` answer the same cycle. -/
theorem stepRunsTheDecodedInstruction : Obligations.StepRunsTheDecodedInstruction := by
  intro s w i h hw hd
  obtain ⟨hs, -⟩ := id h
  have hstep := step_eq_next h hw hd
  have hexec : exec i s = .next (finishCycle (issuePhase i s)) :=
    (exec_next_iff i s _).mpr ⟨hs, decode_ok_wellFormed hd, rfl⟩
  exact ⟨hstep.trans hexec.symm, hstep⟩

/-! ### The ports and the clock edge -/

theorem isHaltWord_iff_toNat (w : Diw) : isHaltWord w = true ↔ w.toNat / 2 ^ 61 = 5 := by
  rw [isHaltWord, beq_iff_eq, ← BitVec.toNat_inj, opField_toNat]
  rfl

theorem haltNext_eq_some_iff (s : State) (b : Bool) :
    s.haltNext = some b ↔ ∃ w, s.im[s.pc.toNat]? = some w ∧ isHaltWord w = b :=
  Option.map_eq_some_iff

theorem robEmpty_iff (s : State) : s.robEmpty = true ↔ s.count = 0 := beq_iff_eq

/-- Settles O42: `halt_next` reads the operation code of the word at pc as a number. -/
theorem driverQueries : Obligations.DriverQueries := by
  refine fun s => ⟨fun w hw => (haltNext_eq_some_iff s _).mpr ⟨w, hw, ?_⟩, robEmpty_iff s⟩
  rw [Bool.eq_iff_iff, decide_eq_true_iff, isHaltWord_iff_toNat]

/-- Settles O43: the three branches of `clockEdge`, where `applyReset` is `resetWith` of the instance's own inputs. -/
theorem clockEdge_resets_then_steps : Obligations.ClockEdge := fun _ => ⟨fun _ => rfl, rfl, rfl⟩

end Sys2Proof.Machine
end

section
/-! The end of a cycle with nothing in flight: no station is occupied and the head is not in use, so Execute,
Broadcast and Commit change nothing (R94, R196). -/

namespace Sys2Proof.Machine

variable {s : State}

/-- With nothing in flight no entry is in use (W2). -/
theorem inuse_of_count_eq_zero (h : s.CoreWF) (hc : s.count = 0) {k : Nat} (hk : k < s.cfg.robSize) :
    (s.robAt k).inuse = false := by
  simpa [hc] using h.w2 k hk

/-- With nothing in flight every station is free: an occupied one computes for an entry in use (W4). -/
theorem occ_of_count_eq_zero (h : s.CoreWF) (hc : s.count = 0) {i : Nat} (hi : i < s.cfg.rsSize) :
    (s.rsAt i).occ = false := by
  by_contra ho
  obtain ⟨hd, hu, -⟩ := h.w4 i hi (by simpa using ho)
  simp [inuse_of_count_eq_zero h hc hd] at hu

/-- A phase that changes no station by index leaves the pool. -/
theorem map_rs_eq_self {f : Station → Station} (hf : ∀ i, i < s.rs.length → f (s.rsAt i) = s.rsAt i) :
    s.rs.map f = s.rs :=
  List.ext_getElem (List.length_map f) fun i _ hi => by
    simpa [State.rsAt, List.getD_eq_getElem?_getD, hi] using hf i hi

theorem eligible_of_free {st : Station} (h : st.occ = false) : st.eligible = false := by
  simp [Station.eligible, h]

theorem hearStation_of_free {st : Station} (h : st.occ = false) : s.hearStation st = st := by
  simp [State.hearStation, h]

section FreeStations

variable (hfree : ∀ i, i < s.rs.length → (s.rsAt i).occ = false)

include hfree

theorem execute_of_free : execute s = s := by
  have hnone : ∀ k, s.resultFor k = none := fun k =>
    resultFor_none fun i hi he => by simp [eligible_of_free (hfree i hi)] at he
  have hrob : s.rob.mapIdx (fun k e => s.executeEntry k e) = s.rob := by
    simp [List.mapIdx_eq_iff, executeEntry_of_none (hnone _)]
  have hrs : s.rs.map Station.execute = s.rs :=
    map_rs_eq_self fun i hi => station_execute_of_not_eligible (eligible_of_free (hfree i hi))
  rw [execute, hrob, hrs]

theorem broadcast_of_free : broadcast s = s := by
  rw [broadcast, map_rs_eq_self fun i hi => hearStation_of_free (hfree i hi)]

end FreeStations

theorem finishCycle_of_count_eq_zero (h : s.CoreWF) (hc : s.count = 0) : finishCycle s = cycleInc s := by
  have hfree : ∀ i, i < s.rs.length → (s.rsAt i).occ = false := fun i hi =>
    occ_of_count_eq_zero h hc (h.rs_length ▸ hi)
  have hhead : (s.robAt s.head).done = false := by
    simp [RobEntry.done, inuse_of_count_eq_zero h hc h.head_lt]
  rw [finishCycle, execute_of_free hfree, broadcast_of_free hfree, commit_of_not_done hhead]

/-- Settles O53: HALT issues nothing, and with nothing in flight the rest of the cycle only counts. -/
theorem drainedHaltChangesOnlyCycle : Obligations.DrainedHaltChangesOnlyCycle := by
  intro s h hhalt hempty
  obtain ⟨hs, -⟩ := id h
  obtain ⟨w, hw, hword⟩ := (haltNext_eq_some_iff s true).mp hhalt
  rw [step_eq_next h hw (decode_of_isHaltWord hword s.cfg.nregs)]
  exact congrArg _ (finishCycle_of_count_eq_zero hs ((robEmpty_iff s).mp hempty))

end Sys2Proof.Machine
end

section
/-! Issue in full (R103 to R110, R114, R160): what the resolver answers, when Issue stalls, and the state it leaves
when it does not. -/

namespace Sys2Proof.Machine

/-! ### The resolver -/

theorem produces_iff (r : RegIdx) (e : RobEntry) :
    e.produces r = true ↔ e.inuse = true ∧ e.ready = false ∧ e.dest = r := by
  simp [RobEntry.produces, RobEntry.unready, and_assoc]

/-- Settles O19: each of the resolver's two answers excludes the other, so each direction follows from what
`resolve_cases` says of the answer it gives. -/
theorem resolverTakesFirstMatch : Obligations.ResolverTakesFirstMatch := by
  intro s r hlen
  simp only [← produces_iff, Bool.not_eq_true, ← hlen]
  obtain ⟨k, e, hk, hp, hlow⟩ | ⟨e, hnone⟩ := resolve_cases s r
  · rw [e]
    refine ⟨fun k' => ⟨?_, ?_⟩, fun v => ⟨nofun, ?_⟩⟩
    · rintro ⟨⟩
      exact ⟨hk, hp, hlow⟩
    · rintro ⟨-, hp', hlow'⟩
      obtain hlt | rfl | hgt := Nat.lt_trichotomy k k'
      · simp [hlow' k hlt] at hp
      · rfl
      · simp [hlow k' hgt] at hp'
    · rintro ⟨-, hnone⟩
      simp [hnone k hk] at hp
  · rw [e]
    refine ⟨fun k => ⟨nofun, ?_⟩, fun v => ⟨?_, ?_⟩⟩
    · rintro ⟨hk, hp, -⟩
      simp [hnone k hk] at hp
    · rintro ⟨⟩
      exact ⟨rfl, hnone⟩
    · rintro ⟨rfl, -⟩
      rfl

/-- Settles O20: a captured tag names an entry in the window (W2), and the tail is the first entry after it; W6 in
s1 is a clause that Issue keeps. -/
theorem newTagsNameOlderProducers : Obligations.NewTagsNameOlderProducers := by
  refine ⟨fun s r q h hc hq => ?_, fun s i h hi => (issuePhase_coreWF h hi).w6⟩
  obtain ⟨hlt, hu, hr⟩ := captures_resolve h r q hq
  exact ⟨hlt, hu, hr, (h.w2 q hlt).mp hu, age_tail h hc⟩

/-! ### The stall -/

variable {i : Instr} {s : State} {op : OpKind} {rd : RegIdx} {j k : Operand} {f : Nat}

theorem issuePhase_of_not_issuesNow (hi : issuesNow i s = false) : issuePhase i s = s := by
  obtain ⟨-, e⟩ | ⟨op, rd, j, k, f, hi', -⟩ := issuePhase_cases i s
  · exact e
  · simp [hi] at hi'

theorem kindOf_isSome_of_ne_halt (hi : i ≠ .halt) : (kindOf i).isSome = true := by
  cases i with
  | halt => exact absurd rfl hi
  | _ => rfl

/-- Settles O16: under either stall test `issuesNow` is false, and HALT's Issue leaves the state in any case;
without both it is true of every instruction but HALT. -/
theorem stallAllocatesNothing : Obligations.StallAllocatesNothing := by
  intro i s h hi
  have hnext : exec i s = .next (finishCycle (issuePhase i s)) := (exec_next_iff i s _).mpr ⟨h, hi, rfl⟩
  rw [← stalls_iff s h.rs_length]
  refine ⟨fun hst => ?_, fun hst hne => ?_⟩
  · have he : issuePhase i s = s := issuePhase_of_not_issuesNow (by simp [issuesNow, hst])
    rw [he] at hnext
    have hhalt : exec .halt s = .next (finishCycle s) := (exec_next_iff .halt s _).mpr ⟨h, rfl, rfl⟩
    exact ⟨he, finishCycle s, hnext, hhalt, finishCycle_pc s, finishCycle_tail s⟩
  · have hnow : issuesNow i s = true := by simp [issuesNow, kindOf_isSome_of_ne_halt hne, hst]
    exact ⟨_, hnext, by simp [issuePhase_pc, hnow], by simp [issuePhase_tail, hnow]⟩

/-! ### The allocation -/

/-- The allocator picks the station that is free with none free below it (R107). -/
theorem freeStation_of_lowest (hf : f < s.rs.length) (hfree : (s.rsAt f).occ = false)
    (hlow : ∀ n, n < f → (s.rsAt n).occ = true) : s.freeStation = some f := by
  cases hg : s.freeStation with
  | none => simp [freeStation_eq_none hg f hf] at hfree
  | some g =>
    obtain ⟨-, hgfree, hglow⟩ := freeStation_eq_some hg
    obtain hlt | rfl | hgt := Nat.lt_trichotomy f g
    · simp [hglow f hlt] at hfree
    · rfl
    · simp [hlow g hgt] at hgfree

/-- The Issue phase of an instruction but HALT, by its kind, destination and operands. -/
theorem issuePhase_eq_issue (hop : kindOf i = some op) (hrd : destOf i = some rd)
    (hjk : operandsOf i s = some (j, k)) : issuePhase i s = issue op rd j k s := by
  cases i with
  | halt => cases hop
  | _ => cases hop; cases hrd; cases hjk; rfl

theorem issuePhase_eq_allocate (hop : kindOf i = some op) (hrd : destOf i = some rd)
    (hjk : operandsOf i s = some (j, k)) (hc : s.count ≠ s.cfg.robSize) (hf : s.freeStation = some f) :
    issuePhase i s = allocate op rd j k f s := by
  rw [issuePhase_eq_issue hop hrd hjk]
  simp [issue, State.robFull, hc, hf]

/-- Settles O18: an entry whose age is the count lies behind the window, and Issue allocates it. -/
theorem issuePhaseInFull : Obligations.IssuePhaseInFull := by
  intro i s op rd j k f h hop hrd hjk hc hf hfree hlow
  obtain ⟨hle, -⟩ := h.w1
  have hlt := Nat.lt_of_le_of_ne hle hc
  refine ⟨tail_inuse h hlt, age_tail h hlt, ?_⟩
  rw [issuePhase_eq_allocate hop hrd hjk hc (freeStation_of_lowest (h.rs_length ▸ hf) hfree hlow)]
  exact allocate_eq op rd j k f s

end Sys2Proof.Machine
end

section
/-! The stations and the executed entry at the end of a cycle (R113, R121, R122, R131, R135, R137): an eligible
station's value reaches its entry, the register file if the entry is the head, and every operand that waits for
it. -/

namespace Sys2Proof.Machine

section EndOfCycle

variable {s : State} {m n k : Nat} {op : OpKind}

/-! ### Execute -/

/-- One station at most feeds an entry (W4, W5). -/
theorem eq_of_feeds (h : s.CoreWF) (hm : m < s.cfg.rsSize) (hn : n < s.cfg.rsSize) (hfm : s.feeds m k = true)
    (hfn : s.feeds n k = true) : n = m := by
  obtain ⟨ho, rfl⟩ := (feeds_iff _ _ _).mp hfm
  obtain ⟨hlt, hu, hr⟩ := h.w4 m hm ho
  obtain ⟨m', -, -, huniq⟩ := h.w5 _ hlt hu hr
  exact (huniq n hn hfn).trans (huniq m hm hfm).symm

/-- What Execute computes for an entry is decided by the one station that feeds it (W4, W5). -/
theorem resultFor_of_feeds (h : s.CoreWF) (hm : m < s.cfg.rsSize) (hf : s.feeds m k = true) :
    s.resultFor k = if (s.rsAt m).eligible then (s.rsAt m).result else none := by
  obtain ⟨-, rfl⟩ := (feeds_iff _ _ _).mp hf
  have hone : ∀ n, n < s.rs.length → (s.rsAt n).eligible = true → (s.rsAt n).dest = (s.rsAt m).dest → n = m :=
    fun n hn he hd => eq_of_feeds h hm (h.rs_length ▸ hn) hf
      ((feeds_iff _ _ _).mpr ⟨((eligible_iff _).mp he).1, hd⟩)
  split
  · exact resultFor_some (h.rs_length ▸ hm) ‹_› hone
  · refine resultFor_none fun n hn he hd => ?_
    obtain rfl := hone n hn he hd
    exact absurd he ‹_›

theorem result_of_ofCode {st : Station} (hop : OpKind.ofCode st.op = some op) :
    st.result = some (compute op st.j.v st.k.v) := by
  simp [Station.result, hop]

/-- The entry a station feeds, after Execute: computed if the station is eligible, and else as it was. -/
theorem robAt_execute_of_feeds (h : s.CoreWF) (hm : m < s.cfg.rsSize) (hf : s.feeds m k = true)
    (hop : OpKind.ofCode (s.rsAt m).op = some op) :
    (execute s).robAt k = if (s.rsAt m).eligible then
      (s.robAt k).complete (compute op (s.rsAt m).j.v (s.rsAt m).k.v) else s.robAt k := by
  obtain ⟨ho, rfl⟩ := (feeds_iff _ _ _).mp hf
  obtain ⟨hlt, -⟩ := h.w4 m hm ho
  rw [robAt_execute s _ (h.rob_length ▸ hlt), State.executeEntry, resultFor_of_feeds h hm hf, result_of_ofCode hop]
  cases (s.rsAt m).eligible <;> rfl

/-! ### The stations -/

@[simp] theorem station_execute_op (st : Station) : st.execute.op = st.op := by
  unfold Station.execute; split <;> rfl

@[simp] theorem station_execute_dest (st : Station) : st.execute.dest = st.dest := by
  unfold Station.execute; split <;> rfl

theorem rsAt_finishCycle (hn : n < s.rs.length) :
    (finishCycle s).rsAt n = (execute s).hearStation (s.rsAt n).execute := by
  have hn' : n < (execute s).rs.length := by simpa using hn
  rw [← rsAt_execute s n hn, ← rsAt_broadcast _ n hn']
  exact rsAt_congr (by simp [finishCycle]) n

theorem rsAt_finishCycle_of_free (hn : n < s.rs.length) (ho : (s.rsAt n).occ = false) :
    (finishCycle s).rsAt n = s.rsAt n := by
  rw [rsAt_finishCycle hn, station_execute_of_not_eligible (eligible_of_free ho), hearStation_of_free ho]

theorem rsAt_finishCycle_of_eligible (hn : n < s.rs.length) (he : (s.rsAt n).eligible = true) :
    (finishCycle s).rsAt n = { s.rsAt n with occ := false } := by
  rw [rsAt_finishCycle hn, station_execute_of_eligible he]
  exact hearStation_of_free rfl

/-- A station that waits hears the entries that Execute leaves ready. -/
theorem rsAt_finishCycle_of_waiting (hn : n < s.rs.length) (ho : (s.rsAt n).occ = true)
    (he : (s.rsAt n).eligible = false) :
    (finishCycle s).rsAt n =
      { s.rsAt n with j := (execute s).hear (s.rsAt n).j, k := (execute s).hear (s.rsAt n).k } := by
  rw [rsAt_finishCycle hn, station_execute_of_not_eligible he, State.hearStation, if_pos ho]

theorem operandAfter_self {x : OperandFields} (hx : x.qv = false) : OperandAfter s x x :=
  ⟨fun _ => rfl, fun hq => by simp [hx] at hq⟩

/-- What a legal tag hears: its producer's value if the producer's station executes, and else nothing (R131). -/
theorem operandAfter_hear (h : s.CoreWF) {x : OperandFields} {d : Nat} (hx : s.TagOk x d) :
    OperandAfter s x ((execute s).hear x) := by
  refine ⟨fun hq => by simp [State.hear, hq], fun hq m op hm hf hop => ?_⟩
  obtain ⟨-, hu, hr, -⟩ := (isOlderProducer_iff _ _ _).mp (hx hq)
  rw [State.hear, robAt_execute_of_feeds h hm hf hop, hq]
  cases (s.rsAt m).eligible with
  | true => simp [RobEntry.done, RobEntry.complete, hu]
  | false => simp [RobEntry.done, hr]

/-- The end of a cycle treats both operands of an occupied station as `OperandAfter` says, whether or not the
station executes. -/
theorem finishCycle_operandsAfter (h : s.CoreWF) (hn : n < s.cfg.rsSize) (ho : (s.rsAt n).occ = true) :
    OperandAfter s (s.rsAt n).j ((finishCycle s).rsAt n).j ∧
      OperandAfter s (s.rsAt n).k ((finishCycle s).rsAt n).k := by
  have hn' : n < s.rs.length := h.rs_length ▸ hn
  cases he : (s.rsAt n).eligible with
  | true =>
    obtain ⟨-, hj, hk⟩ := (eligible_iff _).mp he
    rw [rsAt_finishCycle_of_eligible hn' he]
    exact ⟨operandAfter_self hj, operandAfter_self hk⟩
  | false =>
    obtain ⟨hj, hk⟩ := h.w6 n hn ho
    rw [rsAt_finishCycle_of_waiting hn' ho he]
    exact ⟨operandAfter_hear h hj, operandAfter_hear h hk⟩

/-! ### The entry of a station that executes, and of one that waits -/

/-- A computed entry is kept for its turn unless it is the head, which retires at once (R135, R137). -/
theorem finishCycle_robAt_of_eligible (h : s.CoreWF) (hm : m < s.cfg.rsSize) (he : (s.rsAt m).eligible = true)
    (hop : OpKind.ofCode (s.rsAt m).op = some op) :
    (finishCycle s).robAt (s.rsAt m).dest =
      if (s.rsAt m).dest = s.head then
        ((s.robAt (s.rsAt m).dest).complete (compute op (s.rsAt m).j.v (s.rsAt m).k.v)).retire
      else (s.robAt (s.rsAt m).dest).complete (compute op (s.rsAt m).j.v (s.rsAt m).k.v) := by
  obtain ⟨ho, -⟩ := (eligible_iff _).mp he
  obtain ⟨hlt, hu, -⟩ := h.w4 m hm ho
  have hex := robAt_execute_of_feeds h hm ((feeds_iff _ _ _).mpr ⟨ho, rfl⟩) hop
  rw [if_pos he] at hex
  rw [robAt_finishCycle]
  split
  case isTrue hd =>
    rw [hd] at hex hu ⊢
    have hc := robAt_commit_head (broadcast (execute s))
    rw [robAt_broadcast, broadcast_head, execute_head, hex] at hc
    exact hc (by simpa using h.rob_length ▸ h.head_lt) (by simp [RobEntry.done, RobEntry.complete, hu])
  case isFalse hd => rw [robAt_commit_ne (broadcast (execute s)) _ hd, robAt_broadcast, hex]

/-- Commit writes the value of a head that is done to its destination (R135). -/
theorem regAt_commit_head (hd : (s.robAt s.head).done = true)
    (hr : (s.robAt s.head).dest.toNat < s.rf.length) :
    (commit s).regAt (s.robAt s.head).dest = (s.robAt s.head).value := by
  obtain ⟨-, e⟩ | ⟨hn, -⟩ := commit_cases s
  · rw [e]
    exact regAt_writeReg_self s _ _ hr
  · simp [hd] at hn

/-- The head's station writes its value to the head's register in the cycle it executes (R137). -/
theorem finishCycle_regAt_of_head_feeds (h : s.CoreWF) (hm : m < s.cfg.rsSize) (hf : s.feeds m s.head = true)
    (hop : OpKind.ofCode (s.rsAt m).op = some op) :
    (finishCycle s).regAt (s.robAt s.head).dest = compute op (s.rsAt m).j.v (s.rsAt m).k.v := by
  obtain ⟨ho, hd⟩ := (feeds_iff _ _ _).mp hf
  obtain ⟨-, hu, -⟩ := h.w4 m hm ho
  rw [hd] at hu
  obtain ⟨-, hrf, -⟩ := h.shape
  obtain ⟨hrob, -⟩ := h.w7
  have hex : (broadcast (execute s)).robAt s.head = _ := robAt_execute_of_feeds h hm hf hop
  rw [if_pos (head_station_eligible h hm hf)] at hex
  have hc := regAt_commit_head (s := broadcast (execute s))
  rw [broadcast_head, execute_head, hex] at hc
  exact hc (by simp [RobEntry.done, RobEntry.complete, hu]) (hrf ▸ (hrob _ h.head_lt hu).2)

/-- The entry of a station that waits is not touched. -/
theorem finishCycle_robAt_of_waiting (h : s.CoreWF) (hm : m < s.cfg.rsSize) (ho : (s.rsAt m).occ = true)
    (he : (s.rsAt m).eligible = false) : (finishCycle s).robAt (s.rsAt m).dest = s.robAt (s.rsAt m).dest := by
  obtain ⟨hlt, -, hr⟩ := h.w4 m hm ho
  refine finishCycle_robAt_of_unfed (h.rob_length ▸ hlt) (by simp [RobEntry.done, hr]) fun n hn hne hd => ?_
  have hnm : n = m := eq_of_feeds h hm (h.rs_length ▸ hn) ((feeds_iff _ _ _).mpr ⟨ho, rfl⟩)
    ((feeds_iff _ _ _).mpr ⟨((eligible_iff _).mp hne).1, hd⟩)
  simp [hnm, he] at hne

end EndOfCycle

/-! ### The cycle -/

section Cycle

variable {i : Instr} {s : State} {n : Nat}

/-- Issue changes no station but the one it allocates. -/
theorem issuePhase_rsAt_of_not_allocated (hn : ¬(issuesNow i s = true ∧ s.freeStation = some n)) :
    (issuePhase i s).rsAt n = s.rsAt n := by
  obtain ⟨-, e⟩ | ⟨op, rd, j, k, f, hi, -, -, -, hf, e, -⟩ := issuePhase_cases i s
  · rw [e]
  · rw [e, rsAt_allocate hf, if_neg]
    rintro rfl
    exact hn ⟨hi, hf⟩

theorem issuePhase_rsAt_of_occ (ho : (s.rsAt n).occ = true) : (issuePhase i s).rsAt n = s.rsAt n := by
  refine issuePhase_rsAt_of_not_allocated fun ⟨_, hf⟩ => ?_
  obtain ⟨-, hfree, -⟩ := freeStation_eq_some hf
  simp [ho] at hfree

/-- The producers of the start state are those of s1 that feed the same entries. -/
theorem operandAfter_of_issuePhase {x x' : OperandFields} (hx : OperandAfter (issuePhase i s) x x') :
    OperandAfter s x x' := by
  obtain ⟨hval, htag⟩ := hx
  refine ⟨hval, fun hq m op hm hf hop => ?_⟩
  obtain ⟨ho, -⟩ := (feeds_iff _ _ _).mp hf
  have hst := issuePhase_rsAt_of_occ (i := i) ho
  have := htag hq m op
  simp only [issuePhase_cfg, State.feeds, hst] at this
  exact this hm hf hop

/-- Settles O32: Issue leaves the station as it was, and the end of the cycle treats it by its kind: free, eligible
or waiting. -/
theorem operandsStayCaptured : Obligations.OperandsStayCaptured := by
  intro i s t n h hn
  obtain ⟨hs, hi, rfl⟩ := (exec_next_iff i s t).mp h
  have hs1 := issuePhase_coreWF hs hi
  have hn1 : n < (issuePhase i s).cfg.rsSize := by simpa using hn
  have hlen : n < (issuePhase i s).rs.length := hs1.rs_length ▸ hn1
  refine ⟨fun hfree hna => ?_, fun he => ?_, fun ho he => ?_⟩
  · have hst := issuePhase_rsAt_of_not_allocated hna
    rw [rsAt_finishCycle_of_free hlen (hst ▸ hfree), hst]
  · have hst := issuePhase_rsAt_of_occ (i := i) ((eligible_iff _).mp he).1
    rw [rsAt_finishCycle_of_eligible hlen (hst ▸ he), hst]
  · have hst := issuePhase_rsAt_of_occ (i := i) ho
    obtain ⟨hj, hk⟩ := finishCycle_operandsAfter hs1 hn1 (hst ▸ ho)
    rw [hst] at hj hk
    refine ⟨?_, ?_, ?_, operandAfter_of_issuePhase hj, operandAfter_of_issuePhase hk⟩ <;>
      rw [rsAt_finishCycle_of_waiting hlen (hst ▸ ho) (hst ▸ he), hst]
    exact ho

end Cycle

section Allocated

variable {s : State} {op : OpKind} {rd : RegIdx} {j k : Operand} {f : Nat}

/-- Head and tail agree below a full buffer only with nothing in flight. -/
theorem tail_eq_head_iff (h : s.CoreWF) (hc : s.count < s.cfg.robSize) : s.tail = s.head ↔ s.count = 0 := by
  rw [eq_comm, ← age_eq_count_iff h.w1 hc h.head_lt, age_head h.head_lt, eq_comm]

/-- With two values the new station executes in the cycle it issues, and its entry, alone in flight, retires in it
(R121, R122, R137). -/
theorem finishCycle_allocate_vals {t : State} {vj vk : Word} (h : s.CoreWF) (hc : s.count < s.cfg.robSize)
    (hf : s.freeStation = some f) (h1 : (allocate op rd (.val vj) (.val vk) f s).CoreWF)
    (ht : t = finishCycle (allocate op rd (.val vj) (.val vk) f s)) :
    (t.rsAt f).occ = false ∧ (t.robAt s.tail).value = compute op vj vk ∧
      (s.count ≠ 0 → (t.robAt s.tail).inuse = true ∧ (t.robAt s.tail).ready = true) ∧
      (s.count = 0 → (t.robAt s.tail).inuse = false ∧ (t.robAt s.tail).ready = false ∧
        t.regAt rd = compute op vj vk) := by
  have hlen : f < s.rs.length := (freeStation_eq_some hf).1
  have hst := rsAt_allocate_self op rd (.val vj) (.val vk) f s hlen
  have hrob := robAt_allocate_tail op rd (.val vj) (.val vk) f s (h.rob_length ▸ h.tail_lt)
  have hflt : f < s.cfg.rsSize := h.rs_length ▸ hlen
  have hop : OpKind.ofCode ((allocate op rd (.val vj) (.val vk) f s).rsAt f).op = some op := by
    rw [hst, newStation_op, ofCode_code]
  have he : ((allocate op rd (.val vj) (.val vk) f s).rsAt f).eligible = true := by rw [hst]; rfl
  have hocc := rsAt_finishCycle_of_eligible (h1.rs_length ▸ hflt) he
  have hentry := finishCycle_robAt_of_eligible h1 hflt he hop
  rw [hst, newStation_dest, hrob, allocate_head] at hentry
  have hth := tail_eq_head_iff h hc
  subst ht
  rw [hocc, hentry]
  refine ⟨rfl, by split <;> rfl, fun h0 => ?_, fun h0 => ?_⟩
  · rw [if_neg (mt hth.mp h0)]
    exact ⟨rfl, rfl⟩
  · have hhead := hth.mpr h0
    rw [if_pos hhead]
    have hreg := finishCycle_regAt_of_head_feeds h1 hflt ((feeds_allocate hf _ _).trans (by simp [hhead])) hop
    rw [allocate_head, ← hhead, hrob, hst] at hreg
    exact ⟨rfl, rfl, hreg⟩

/-- With a tag the new station waits, and its entry keeps the value it held (R36, R106). -/
theorem finishCycle_allocate_tag {t : State} {q : Nat} (h : s.CoreWF) (hf : s.freeStation = some f)
    (h1 : (allocate op rd j k f s).CoreWF) (ht : t = finishCycle (allocate op rd j k f s))
    (hq : j = .tag q ∨ k = .tag q) :
    (t.rsAt f).occ = true ∧ (t.robAt s.tail).inuse = true ∧ (t.robAt s.tail).ready = false ∧
      (t.robAt s.tail).value = (s.robAt s.tail).value := by
  have hlen : f < s.rs.length := (freeStation_eq_some hf).1
  have hst := rsAt_allocate_self op rd j k f s hlen
  have hrob := robAt_allocate_tail op rd j k f s (h.rob_length ▸ h.tail_lt)
  have hflt : f < s.cfg.rsSize := h.rs_length ▸ hlen
  have ho : ((allocate op rd j k f s).rsAt f).occ = true := by rw [hst]; rfl
  have he : ((allocate op rd j k f s).rsAt f).eligible = false := by
    rw [hst]
    obtain rfl | rfl := hq <;> simp [Station.eligible]
  have hocc := rsAt_finishCycle_of_waiting (h1.rs_length ▸ hflt) ho he
  have hentry := finishCycle_robAt_of_waiting h1 hflt ho he
  rw [hst, newStation_dest, hrob] at hentry
  subst ht
  rw [hocc, hentry]
  exact ⟨ho, rfl, rfl, rfl⟩

/-- Settles O15: Issue allocates, the end of the cycle keeps what names the instruction in its entry and station,
and the rest depends on whether both operands are values. -/
theorem issueAllocatesAndExecutes : Obligations.IssueAllocatesAndExecutes := by
  intro i s op rd j k f h hi hop hrd hjk hc hf hfree hlow
  have hf0 := freeStation_of_lowest (h.rs_length ▸ hf) hfree hlow
  have e := issuePhase_eq_allocate hop hrd hjk hc.ne hf0
  have h1 : (allocate op rd j k f s).CoreWF := e ▸ issuePhase_coreWF h hi
  have hlen : f < (allocate op rd j k f s).rs.length := h1.rs_length ▸ hf
  have hst := rsAt_allocate_self op rd j k f s (h.rs_length ▸ hf)
  obtain ⟨hrobOp, hrobDest⟩ := finishCycle_robAt_op_dest (k := s.tail) (h1.rob_length ▸ h.tail_lt)
  rw [robAt_allocate_tail op rd j k f s (h.rob_length ▸ h.tail_lt)] at hrobOp hrobDest
  obtain ⟨hj, hk⟩ := finishCycle_operandsAfter h1 hf (by rw [hst]; rfl)
  rw [hst, ← e] at hj hk
  refine ⟨finishCycle (allocate op rd j k f s), e ▸ (exec_next_iff i s _).mpr ⟨h, hi, rfl⟩, by simp, by simp,
    hrobOp, hrobDest, by simp [rsAt_finishCycle hlen, hst], by simp [rsAt_finishCycle hlen, hst],
    e ▸ operandAfter_of_issuePhase hj, e ▸ operandAfter_of_issuePhase hk, ?_, ?_⟩
  · rintro vj vk rfl rfl
    exact finishCycle_allocate_vals h hc hf0 h1 rfl
  · exact fun q hq => finishCycle_allocate_tag h hf0 h1 rfl hq

end Allocated

end Sys2Proof.Machine
end

section
/-! What Execute does to each station and each entry (R121, R122), and that a ready entry is not written again
before Commit retires it (R125, R135). -/

namespace Sys2Proof.Machine

variable {s : State} {m k : Nat} {op : OpKind}

/-! ### Execute alone -/

theorem eligible_eq_false_iff (st : Station) :
    st.eligible = false ↔ st.occ = false ∨ st.j.qv = true ∨ st.k.qv = true := by
  simp only [Station.eligible, Bool.and_eq_false_iff, Bool.not_eq_false', or_assoc]

theorem State.PhaseWF.rob_length (h : s.PhaseWF) : s.rob.length = s.cfg.robSize := by
  obtain ⟨⟨-, -, hrob, -⟩, -⟩ := h
  exact hrob

theorem State.PhaseWF.rs_length (h : s.PhaseWF) : s.rs.length = s.cfg.rsSize := by
  obtain ⟨⟨-, -, -, hrs, -⟩, -⟩ := h
  exact hrs

/-- Execute changes no entry that no eligible station computes for. -/
theorem robAt_execute_of_unfed (hk : k < s.rob.length)
    (hunfed : ∀ n, n < s.rs.length → (s.rsAt n).eligible = true → (s.rsAt n).dest ≠ k) :
    (execute s).robAt k = s.robAt k := by
  rw [robAt_execute s k hk, executeEntry_of_none (resultFor_none hunfed)]

/-- The entry of an eligible station gets that station's value: no other station computes for it (W4, W5). -/
theorem robAt_execute_of_eligible (h : s.PhaseWF) (hm : m < s.cfg.rsSize) (he : (s.rsAt m).eligible = true)
    (hop : OpKind.ofCode (s.rsAt m).op = some op) :
    (execute s).robAt (s.rsAt m).dest =
      (s.robAt (s.rsAt m).dest).complete (compute op (s.rsAt m).j.v (s.rsAt m).k.v) := by
  have hrob := h.rob_length
  have hrs := h.rs_length
  obtain ⟨-, -, -, -, h4, h5, -⟩ := h
  obtain ⟨ho, -⟩ := (eligible_iff _).mp he
  obtain ⟨hlt, hu, hr⟩ := h4 m hm ho
  obtain ⟨m', -, -, huniq⟩ := h5 _ hlt hu hr
  have hone : ∀ n, n < s.rs.length → (s.rsAt n).eligible = true → (s.rsAt n).dest = (s.rsAt m).dest → n = m := by
    intro n hn hen hd
    obtain ⟨hon, -⟩ := (eligible_iff _).mp hen
    exact (huniq n (hrs ▸ hn) ((feeds_iff _ _ _).mpr ⟨hon, hd⟩)).trans
      (huniq m hm ((feeds_iff _ _ _).mpr ⟨ho, rfl⟩)).symm
  rw [robAt_execute s _ (hrob ▸ hlt), State.executeEntry, resultFor_some (hrs ▸ hm) he hone, result_of_ofCode hop]

/-- Settles O21: an eligible station is the only one that computes for its entry, a station that is not eligible is
left by Execute, and an entry changes only for an eligible station. -/
theorem executeEligibleStations : Obligations.ExecuteEligibleStations := by
  intro s h
  have hrob := h.rob_length
  have hrs := h.rs_length
  refine ⟨fun n op hn ho hj hk hop => ?_, fun n hn hwait => ?_, fun k hk hunfed => ?_, rfl, ?_, ?_⟩
  · have he := (eligible_iff _).mpr ⟨ho, hj, hk⟩
    refine ⟨robAt_execute_of_eligible h hn he hop, ?_⟩
    rw [rsAt_execute s n (hrs ▸ hn), station_execute_of_eligible he]
  · rw [rsAt_execute s n (hrs ▸ hn), station_execute_of_not_eligible ((eligible_eq_false_iff _).mpr hwait)]
  · refine robAt_execute_of_unfed (hrob ▸ hk) fun n hn he hd => ?_
    obtain ⟨ho, -⟩ := (eligible_iff _).mp he
    have := hunfed n (hrs ▸ hn) ((feeds_iff _ _ _).mpr ⟨ho, hd⟩)
    simp [he] at this
  · rw [execute_rob, List.length_mapIdx]
  · rw [execute_rs, List.length_map]

/-! ### Ready entries -/

/-- Execute leaves a ready entry: an occupied station computes for an unready one (W4). -/
theorem robAt_execute_of_ready (h : s.CoreWF) (hk : k < s.cfg.robSize) (hr : (s.robAt k).ready = true) :
    (execute s).robAt k = s.robAt k := by
  refine robAt_execute_of_unfed (h.rob_length ▸ hk) ?_
  rintro n hn he rfl
  obtain ⟨-, -, hunready⟩ := h.w4 n (h.rs_length ▸ hn) ((eligible_iff _).mp he).1
  simp [hr] at hunready

/-- The end of a cycle retires a ready entry if it is the head, and else leaves it (R125, R135). -/
theorem finishCycle_robAt_of_ready (h : s.CoreWF) (hk : k < s.cfg.robSize) (hr : (s.robAt k).ready = true) :
    (finishCycle s).robAt k = if k = s.head then (s.robAt k).retire else s.robAt k := by
  have hex := robAt_execute_of_ready h hk hr
  rw [robAt_finishCycle]
  split
  case isTrue hhead =>
    subst hhead
    have hc := robAt_commit_head (broadcast (execute s)) (by simpa using h.rob_length ▸ hk)
    rw [robAt_broadcast, broadcast_head, execute_head, hex] at hc
    exact hc (by simp [RobEntry.done, h.w3 _ hk hr, hr])
  case isFalse hne => rw [robAt_commit_ne (broadcast (execute s)) k hne, robAt_broadcast, hex]

/-- Settles O30: Issue allocates no entry in use, so the ready entry reaches the end of the cycle as it was, and only
its own retirement changes it there. -/
theorem readyEntryKeptUntilRetired : Obligations.ReadyEntryKeptUntilRetired := by
  intro i s t k h hk hu hr
  obtain ⟨hs, hi, rfl⟩ := (exec_next_iff i s t).mp h
  have he := issuePhase_robAt i s (not_allocated_of_inuse hs hu)
  have hfin := finishCycle_robAt_of_ready (issuePhase_coreWF hs hi) (by simpa using hk) (he ▸ hr)
  rw [he, issuePhase_head] at hfin
  exact ⟨fun hne => by rw [hfin, if_neg hne], fun heq => by rw [hfin, if_pos heq]; rfl⟩

end Sys2Proof.Machine
end

section
/-! Broadcast and Commit alone (R131, R135, R138, R139), and what a cycle commits: the head's value to one register
(R135 to R137). -/

namespace Sys2Proof.Machine

variable {s : State}

theorem done_iff (e : RobEntry) : e.done = true ↔ e.inuse = true ∧ e.ready = true := by
  simp [RobEntry.done]

theorem done_eq_false_iff (e : RobEntry) : e.done = false ↔ e.inuse = false ∨ e.ready = false :=
  Bool.and_eq_false_iff

/-! ### Broadcast -/

/-- The two clauses of R131 for one operand: a tag to an entry that is done becomes its value, and everything else
stays. -/
theorem hear_resolves (x : OperandFields) :
    (x.qv = true → (s.robAt x.q).inuse = true → (s.robAt x.q).ready = true →
      s.hear x = { v := (s.robAt x.q).value, qv := false, q := x.q }) ∧
    (x.qv = false ∨ (s.robAt x.q).inuse = false ∨ (s.robAt x.q).ready = false → s.hear x = x) := by
  rw [← done_eq_false_iff]
  obtain ⟨hq, hd, e⟩ | ⟨hn, e⟩ := hear_cases s x
  · exact ⟨fun _ _ _ => e, fun h => by simp [hq, hd] at h⟩
  · refine ⟨fun hq hu hr => ?_, fun _ => e⟩
    simp [hq, (done_iff _).mpr ⟨hu, hr⟩] at hn

theorem hearStation_of_occ {st : Station} (h : st.occ = true) :
    s.hearStation st = { st with j := s.hear st.j, k := s.hear st.k } := by
  simp [State.hearStation, h]

/-- Settles O22: an occupied station hears with both operands, a free one does not listen, and Broadcast writes the
stations only. -/
theorem broadcastResolvesTags : Obligations.BroadcastResolvesTags := by
  refine fun s => ⟨rfl, by simp, fun n hn ho => ?_, fun n hn ho => ⟨s.hear (s.rsAt n).j, s.hear (s.rsAt n).k, ?_, ?_⟩⟩
  · rw [rsAt_broadcast s n hn, hearStation_of_free ho]
  · rw [rsAt_broadcast s n hn, hearStation_of_occ ho]
  · intro x x' hx
    obtain ⟨rfl, rfl⟩ | ⟨rfl, rfl⟩ := hx.imp Prod.mk.inj Prod.mk.inj <;> exact hear_resolves _

/-- No operand that has heard the broadcast still holds the tag of an entry that is done. -/
theorem hear_not_tag_of_done {k : Nat} (hd : (s.robAt k).done = true) (x : OperandFields) :
    ¬((s.hear x).qv = true ∧ (s.hear x).q = k) := by
  rintro ⟨hq, rfl⟩
  obtain ⟨-, -, e⟩ | ⟨hn, e⟩ := hear_cases s x
  · simp [e] at hq
  · rw [e] at hq hd
    simp [hq, hd] at hn

/-- Settles O24: Broadcast writes no entry, so every occupied station has heard a head that is in use and ready
after it. -/
theorem noTagToTheRetiredHead : Obligations.NoTagToTheRetiredHead := by
  rintro i s s3 n hs hi rfl hu hr hn ho
  have hlen : n < (execute (issuePhase i s)).rs.length := by
    simpa [(issuePhase_coreWF hs hi).rs_length] using hn
  have hd := (done_iff _).mpr ⟨hu, hr⟩
  rw [rsAt_broadcast _ n hlen] at ho ⊢
  rw [hearStation_occ] at ho
  rw [hearStation_of_occ ho]
  exact ⟨hear_not_tag_of_done hd _, hear_not_tag_of_done hd _⟩

/-! ### Commit and the cycle number -/

/-- Settles O23: the two branches of Commit. -/
theorem commitRetiresTheHead : Obligations.CommitRetiresTheHead := by
  intro s
  obtain ⟨hd, e⟩ | ⟨hd, e⟩ := commit_cases s
  · refine ⟨fun _ _ => e, fun h => ?_⟩
    rw [← done_eq_false_iff, hd] at h
    cases h
  · refine ⟨fun hu hr => ?_, fun _ => e⟩
    rw [(done_iff _).mpr ⟨hu, hr⟩] at hd
    cases hd

@[simp] theorem issuePhase_cycle (i : Instr) (s : State) : (issuePhase i s).cycle = s.cycle := by
  obtain ⟨-, e⟩ | ⟨op, rd, j, k, f, -, -, -, -, -, e, -⟩ := issuePhase_cases i s <;> simp [e, allocate_eq]

@[simp] theorem finishCycle_cycle (s : State) : (finishCycle s).cycle = s.cycle + 1 := by
  simp [finishCycle]

/-- Settles O34: CycleInc adds one to a 32-bit number, and no other phase writes it. -/
theorem everyCycleCounts : Obligations.EveryCycleCounts := by
  have hone : ∀ c : BitVec 32, (c + 1).toNat = (c.toNat + 1) % 2 ^ 32 := fun c => BitVec.toNat_add c 1
  refine ⟨fun s => ?_, fun i s t h => ?_⟩
  · rw [← hone, BitVec.ofNat_toNat, BitVec.setWidth_eq, cycleInc]
  · obtain ⟨-, -, rfl⟩ := (exec_next_iff i s t).mp h
    rw [finishCycle_cycle, issuePhase_cycle, hone]

/-! ### What a cycle commits -/

/-- The end of a cycle writes the value of a ready head to the head's register (R135). -/
theorem finishCycle_regAt_of_ready_head (h : s.CoreWF) (hr : (s.robAt s.head).ready = true) :
    (finishCycle s).regAt (s.robAt s.head).dest = (s.robAt s.head).value := by
  have hu := h.w3 _ h.head_lt hr
  obtain ⟨-, hrf, -⟩ := h.shape
  obtain ⟨hrob, -⟩ := h.w7
  have hc := regAt_commit_head (s := broadcast (execute s))
  rw [robAt_broadcast, broadcast_head, execute_head, robAt_execute_of_ready h h.head_lt hr] at hc
  exact hc ((done_iff _).mpr ⟨hu, hr⟩) (hrf ▸ (hrob _ h.head_lt hu).2)

/-- Settles O28: Issue leaves the in-flight head and its station, so the rest of the cycle commits the value the head
held, or the one its station computes. -/
theorem headCommitsInTheCycleItExecutes : Obligations.HeadCommitsInTheCycleItExecutes := by
  intro i s t h hc
  obtain ⟨hs, hi, rfl⟩ := (exec_next_iff i s t).mp h
  have hs1 := issuePhase_coreWF hs hi
  have he := issuePhase_robAt i s (not_allocated_of_inuse hs ((head_inuse_iff hs).mpr hc))
  refine ⟨fun hr => ?_, fun _ n op hn hf hop => ?_⟩
  · have := finishCycle_regAt_of_ready_head hs1
    rw [issuePhase_head, he] at this
    exact this hr
  · have hst := issuePhase_rsAt_of_occ (i := i) ((feeds_iff _ _ _).mp hf).1
    have := finishCycle_regAt_of_head_feeds (m := n) (op := op) hs1 (by simpa using hn)
    rw [State.feeds, hst, issuePhase_head, he] at this
    exact this hf hop

/-- The end of a cycle takes no entry but the head out of use (R136). -/
theorem finishCycle_inuse_of_ne_head {k : Nat} (hk : k < s.rob.length) (hne : k ≠ s.head) :
    ((finishCycle s).robAt k).inuse = (s.robAt k).inuse := by
  rw [robAt_finishCycle, robAt_commit_ne (broadcast (execute s)) k hne, robAt_broadcast, robAt_execute s k hk,
    executeEntry_inuse]

/-- The end of a cycle leaves the register file, or writes the destination of an in-flight head (R135, R136). -/
theorem finishCycle_rf_cases (h : s.CoreWF) :
    (finishCycle s).rf = s.rf ∨
      s.count ≠ 0 ∧ ∃ v, (finishCycle s).rf = s.rf.set (s.robAt s.head).dest.toNat v := by
  obtain ⟨hd, e⟩ | ⟨-, e⟩ := commit_cases (broadcast (execute s))
  · refine .inr ⟨(execute_head_done_iff h).mp hd, ((execute s).robAt s.head).value, ?_⟩
    rw [← executeEntry_dest (s := s) s.head, ← robAt_execute s _ (h.rob_length ▸ h.head_lt), finishCycle, e]
    rfl
  · exact .inl (by simp [finishCycle, e])

/-- Settles O29: Issue changes no entry in use and no register, Commit takes the head alone out of use, and writes
the head's destination alone. -/
theorem onlyTheHeadCommits : Obligations.OnlyTheHeadCommits := by
  intro i s t h
  obtain ⟨hs, hi, rfl⟩ := (exec_next_iff i s t).mp h
  refine ⟨fun k hk hne hu => ?_, ?_⟩
  · have hk1 : k < (issuePhase i s).rob.length := by rwa [issuePhase_rob_length, hs.rob_length]
    rw [finishCycle_inuse_of_ne_head hk1 (by rwa [issuePhase_head]),
      issuePhase_robAt i s (not_allocated_of_inuse hs hu), hu]
  · have hrf := finishCycle_rf_cases (issuePhase_coreWF hs hi)
    rw [issuePhase_rf, issuePhase_head] at hrf
    refine hrf.imp id fun ⟨h0, v, e⟩ => ⟨_, v, ?_, e⟩
    rw [committedReg_eq hs, if_neg h0]

end Sys2Proof.Machine
end

section
/-! The computations (R13, R145 to R149): `bv32` turns sums, differences and products of integers into those of
words, and DIV is the machine's signed quotient toward zero in every case but a zero divisor and -2^31 by -1. -/

namespace Sys2Proof.Machine

variable (j k : Word)

/-! ### Wrapping -/

@[simp] theorem bv32_toNat : bv32 (j.toNat : Int) = j := by simp [bv32]

@[simp] theorem bv32_toInt : bv32 j.toInt = j := BitVec.ofInt_toInt

theorem bv32_add (m n : Int) : bv32 (m + n) = bv32 m + bv32 n := BitVec.ofInt_add m n

theorem bv32_mul (m n : Int) : bv32 (m * n) = bv32 m * bv32 n := BitVec.ofInt_mul m n

theorem bv32_sub (m n : Int) : bv32 (m - n) = bv32 m - bv32 n := by
  rw [eq_sub_iff_add_eq, ← bv32_add, sub_add_cancel]

/-- Settles O7: `bv32` of either reading of a word is the word, and `bv32` goes through the three operations. -/
theorem wrappingResults : Obligations.WrappingResults := by
  intro j k
  simp only [bv32_add, bv32_sub, bv32_mul, bv32_toNat, bv32_toInt]
  exact ⟨rfl, rfl, rfl, rfl, rfl, rfl⟩

/-! ### Division -/

/-- R148's quotient of magnitudes, signed, is integer division toward zero: the four cases are those by which
`Int.tdiv` is defined. -/
theorem signedQuotient_eq_tdiv : signedQuotient j k = j.toInt.tdiv k.toInt := by
  unfold signedQuotient
  cases j.toInt <;> cases k.toInt <;> simp [Int.tdiv, (Int.natCast_nonneg _).not_gt]

/-- `divResult` in R148's order, with the quotient toward zero. -/
theorem divResult_eq : divResult j k =
    if k = 0 then 0
    else if j.toInt = -2 ^ 31 ∧ k.toInt = -1 then 0x80000000
    else bv32 (j.toInt.tdiv k.toInt) := by
  rw [divResult, signedQuotient_eq_tdiv]

/-- -2^31 by -1 is the one quotient that a word cannot hold. -/
theorem toInt_bv32_tdiv (h : ¬(j.toInt = -2 ^ 31 ∧ k.toInt = -1)) :
    (bv32 (j.toInt.tdiv k.toInt)).toInt = j.toInt.tdiv k.toInt := by
  have hne : j ≠ BitVec.intMin 32 ∨ k ≠ -1#32 := by
    by_contra! hc
    obtain ⟨rfl, rfl⟩ := hc
    exact h (by decide)
  rw [← BitVec.toInt_sdiv_of_ne_or_ne j k hne, bv32_toInt]

/-- Settles O8: the first two clauses are the first two cases of R148, and outside them the quotient fits a word. -/
theorem divRoundsTowardZero : Obligations.DivRoundsTowardZero := by
  refine ⟨fun j => ?_, fun j k hj hk => ?_, fun j k h0 h => ?_⟩
  · rw [divResult_eq, if_pos rfl]
  · have h0 : k ≠ 0 := by
      rintro rfl
      simp at hk
    rw [divResult_eq, if_neg h0, if_pos ⟨hj, hk⟩]
  · rw [divResult_eq, if_neg h0, if_neg h, toInt_bv32_tdiv j k h]

end Sys2Proof.Machine
end

section
/-! One cycle of an instruction that issues with nothing in flight (R105, R121, R122, R135, R137, R196): its operands
are values, it takes the entry at the head and station 0, executes, and commits. -/

namespace Sys2Proof.Machine

/-- The state between Execute and Commit in such a cycle: the entry at the head holds the result `v`, and station 0
is free again (`execute_allocate_vals`). -/
def executedAtOnce (op : OpKind) (rd : RegIdx) (vj vk v : Word) (s : State) : State :=
  { s with
    pc := s.pc + 1
    tail := (s.head + 1) % s.cfg.robSize
    count := 1
    rob := s.rob.set s.head (((s.robAt s.head).allocate op rd).complete v)
    rs := s.rs.set 0 { newStation op (.val vj) (.val vk) s.head with occ := false } }

section NothingInFlight

variable {s : State} {op : OpKind} {rd : RegIdx} {vj vk : Word} (h : s.CoreWF) (hc : s.count = 0)

include h hc

/-! ### Issue -/

/-- With nothing in flight every register reads as its committed value (R104). -/
theorem resolve_of_count_eq_zero (r : RegIdx) : resolve s r = .val (s.regAt r) := by
  obtain ⟨k, -, hk, hp, -⟩ | ⟨e, -⟩ := resolve_cases s r
  · have hfree := inuse_of_count_eq_zero h hc (h.rob_length ▸ hk)
    simp [produces_iff, hfree] at hp
  · exact e

/-- With nothing in flight the allocator picks station 0 (R107). -/
theorem freeStation_of_count_eq_zero : s.freeStation = some 0 := by
  obtain ⟨⟨-, -, -, hrs, -⟩, -⟩ := h.shape
  exact freeStation_of_lowest (h.rs_length ▸ hrs) (occ_of_count_eq_zero h hc hrs) nofun

/-! ### Execute -/

/-- The new station is the one that executes. -/
theorem eligible_allocate_vals_iff {n : Nat} (hn : n < s.cfg.rsSize) :
    ((allocate op rd (.val vj) (.val vk) 0 s).rsAt n).eligible = true ↔ n = 0 := by
  rw [rsAt_allocate (freeStation_of_count_eq_zero h hc)]
  split
  case isTrue h0 => simp [h0, Station.eligible]
  case isFalse h0 => simp [h0, eligible_of_free (occ_of_count_eq_zero h hc hn)]

/-- The new station's result goes to the entry at the head, and no other entry gets one. -/
theorem resultFor_allocate_vals (n : Nat) :
    (allocate op rd (.val vj) (.val vk) 0 s).resultFor n =
      if n = s.head then some (compute op vj vk) else none := by
  have hf := freeStation_of_count_eq_zero h hc
  have hlen : (allocate op rd (.val vj) (.val vk) 0 s).rs.length = s.cfg.rsSize := by
    simp [allocate_eq, h.rs_length]
  have hlt : 0 < s.cfg.rsSize := h.rs_length ▸ (freeStation_eq_some hf).1
  have hst : (allocate op rd (.val vj) (.val vk) 0 s).rsAt 0 = newStation op (.val vj) (.val vk) s.head := by
    rw [rsAt_allocate hf, if_pos rfl, tail_eq_head h hc]
  have hone : ∀ i, i < s.cfg.rsSize → ((allocate op rd (.val vj) (.val vk) 0 s).rsAt i).eligible = true → i = 0 :=
    fun i hi => (eligible_allocate_vals_iff h hc hi).mp
  split
  case isTrue hn =>
    have := resultFor_some (hlen ▸ hlt) ((eligible_allocate_vals_iff h hc hlt).mpr rfl)
      fun i hi he _ => hone i (hlen ▸ hi) he
    rw [hst, newStation_dest, result_of_ofCode (ofCode_code op)] at this
    exact hn ▸ this
  case isFalse hn =>
    refine resultFor_none fun i hi he => ?_
    rw [hone i (hlen ▸ hi) he, hst]
    exact Ne.symm hn

theorem rob_execute_allocate_vals :
    (execute (allocate op rd (.val vj) (.val vk) 0 s)).rob =
      s.rob.set s.head (((s.robAt s.head).allocate op rd).complete (compute op vj vk)) := by
  refine List.ext_getElem (by simp [allocate_eq]) fun n _ _ => ?_
  simp only [execute_rob, List.getElem_mapIdx, State.executeEntry, resultFor_allocate_vals h hc]
  simp only [allocate_eq, tail_eq_head h hc, List.getElem_set]
  obtain rfl | hne := eq_or_ne s.head n
  · simp
  · simp [hne, hne.symm]

theorem rs_execute_allocate_vals :
    (execute (allocate op rd (.val vj) (.val vk) 0 s)).rs =
      s.rs.set 0 { newStation op (.val vj) (.val vk) s.head with occ := false } := by
  have hfree : s.rs.map Station.execute = s.rs := map_rs_eq_self fun i hi =>
    station_execute_of_not_eligible (eligible_of_free (occ_of_count_eq_zero h hc (h.rs_length ▸ hi)))
  simp only [execute_rs, allocate_eq, List.map_set, hfree, tail_eq_head h hc]
  rw [station_execute_of_eligible rfl]

theorem execute_allocate_vals :
    execute (allocate op rd (.val vj) (.val vk) 0 s) = executedAtOnce op rd vj vk (compute op vj vk) s := by
  rw [executedAtOnce, ← rob_execute_allocate_vals h hc, ← rs_execute_allocate_vals (rd := rd) h hc]
  simp [execute, allocate_eq, hc, tail_eq_head h hc]

/-! ### Broadcast and Commit -/

/-- After Execute every station is free, so none hears the broadcast. -/
theorem broadcast_executedAtOnce (v : Word) :
    broadcast (executedAtOnce op rd vj vk v s) = executedAtOnce op rd vj vk v s := by
  refine broadcast_of_free fun i hi => ?_
  have hi' : i < s.rs.length := by simpa [executedAtOnce] using hi
  obtain rfl | hne := eq_or_ne 0 i
  · exact congrArg Station.occ (getD_set_self s.rs 0 _ _ hi')
  · exact (congrArg Station.occ (getD_set_ne s.rs 0 i _ _ hne)).trans
      (occ_of_count_eq_zero h hc (h.rs_length ▸ hi'))

/-- The head retires its result (R135). -/
theorem cycleInc_commit_executedAtOnce (v : Word) :
    cycleInc (commit (executedAtOnce op rd vj vk v s)) = retiredAtOnce op.code rd vj vk v s := by
  have hhead : (executedAtOnce op rd vj vk v s).robAt (executedAtOnce op rd vj vk v s).head =
      ((s.robAt s.head).allocate op rd).complete v :=
    getD_set_self s.rob s.head _ _ (h.rob_length ▸ h.head_lt)
  obtain ⟨-, e⟩ | ⟨hd, -⟩ := commit_cases (executedAtOnce op rd vj vk v s)
  · rw [e, hhead]
    simp [cycleInc, State.popHead, State.setRob, State.writeReg, executedAtOnce, retiredAtOnce, hc, RobEntry.retire,
      RobEntry.complete, RobEntry.allocate, newStation]
  · rw [hhead] at hd
    cases hd

/-! ### The cycle -/

/-- The whole cycle of an instruction whose operands are values, with nothing in flight. -/
theorem exec_eq_retiredAtOnce {i : Instr} (hi : i.wellFormed s.cfg.nregs = true)
    (hop : kindOf i = some op) (hrd : destOf i = some rd) (hjk : operandsOf i s = some (.val vj, .val vk)) :
    exec i s = .next (retiredAtOnce op.code rd vj vk (compute op vj vk) s) := by
  have hlt : s.count ≠ s.cfg.robSize := by
    have := h.head_lt
    omega
  refine (exec_next_iff i s _).mpr ⟨h, hi, ?_⟩
  rw [issuePhase_eq_allocate hop hrd hjk hlt (freeStation_of_count_eq_zero h hc),
    finishCycle, execute_allocate_vals h hc, broadcast_executedAtOnce h hc,
    cycleInc_commit_executedAtOnce h hc]

/-- The four register-register forms, by the kind of operation they issue. -/
theorem exec_rr_eq_retiredAtOnce {i : Instr} {rj rk : RegIdx} (hregs : i.regs = [rd, rj, rk])
    (hop : kindOf i = some op) (hrd : destOf i = some rd)
    (hjk : operandsOf i s = some (resolve s rj, resolve s rk))
    (hdlt : rd.toNat < s.cfg.nregs) (hjlt : rj.toNat < s.cfg.nregs) (hklt : rk.toNat < s.cfg.nregs) :
    exec i s = .next (retiredAtOnce op.code rd (s.regAt rj) (s.regAt rk)
      (compute op (s.regAt rj) (s.regAt rk)) s) := by
  rw [resolve_of_count_eq_zero h hc, resolve_of_count_eq_zero h hc] at hjk
  refine exec_eq_retiredAtOnce h hc ?_ hop hrd hjk
  simp [Instr.wellFormed, regsInRange_iff, hregs, hdlt, hjlt, hklt]

end NothingInFlight

/-! ### The four instructions -/

/-- Settles O9: the sum of R145 is `bv32` of the sum of the unsigned readings. -/
theorem addFromEmptyRob : Obligations.AddFromEmptyRob := by
  intro s rd rj rk h hc hd hj hk
  obtain ⟨hadd, -⟩ := wrappingResults (s.regAt rj) (s.regAt rk)
  rw [← hadd]
  exact exec_rr_eq_retiredAtOnce (op := .add) h hc rfl rfl rfl rfl hd hj hk

/-- Settles O10: the difference of R146 is `bv32` of the difference of the unsigned readings. -/
theorem subFromEmptyRob : Obligations.SubFromEmptyRob := by
  intro s rd rj rk h hc hd hj hk
  obtain ⟨-, -, hsub, -⟩ := wrappingResults (s.regAt rj) (s.regAt rk)
  rw [← hsub]
  exact exec_rr_eq_retiredAtOnce (op := .sub) h hc rfl rfl rfl rfl hd hj hk

/-- Settles O11: the product of R147 is `bv32` of the product of the unsigned readings. -/
theorem mulFromEmptyRob : Obligations.MulFromEmptyRob := by
  intro s rd rj rk h hc hd hj hk
  obtain ⟨-, -, -, -, hmul, -⟩ := wrappingResults (s.regAt rj) (s.regAt rk)
  rw [← hmul]
  exact exec_rr_eq_retiredAtOnce (op := .mul) h hc rfl rfl rfl rfl hd hj hk

/-- Settles O12: the quotient of R148, in its three cases, is `divResult`. -/
theorem divFromEmptyRob : Obligations.DivFromEmptyRob := by
  intro s rd rj rk h hc hd hj hk
  rw [← divResult_eq]
  exact exec_rr_eq_retiredAtOnce (op := .div) h hc rfl rfl rfl rfl hd hj hk

end Sys2Proof.Machine
end

section
/-! LOAD-IMMEDIATE with nothing in flight (R71, R160, R196). -/

namespace Sys2Proof.Machine

/-- Settles O13: the operands are the immediate and 0 whatever the registers hold (R160), and the fifth
operation's result is its first operand. -/
theorem loadImmFromEmptyRob : Obligations.LoadImmFromEmptyRob := by
  intro s rd imm h hc hd
  have hwf : (Instr.loadImm rd imm).wellFormed s.cfg.nregs = true :=
    (loadImm_wellFormed_iff s.cfg.nregs rd imm).mpr hd
  exact exec_eq_retiredAtOnce (op := .loadImm) h hc hwf rfl rfl rfl

end Sys2Proof.Machine
end

section
/-! HALT: Issue changes nothing and the rest of the cycle runs (R165), which retires one entry if one is in flight
(R198). -/

namespace Sys2Proof.Machine

variable {s : State}

/-- The cycle of HALT is the rest of the cycle run on the start state. -/
theorem exec_halt (h : s.CoreWF) : exec .halt s = .next (finishCycle s) :=
  (exec_next_iff .halt s _).mpr ⟨h, rfl, rfl⟩

/-- Commit lowers the count exactly when the head entry is done. -/
theorem commit_count (s : State) :
    (commit s).count = if (s.robAt s.head).done then s.count - 1 else s.count := by
  obtain ⟨hd, e⟩ | ⟨hd, e⟩ := commit_cases s <;> simp [hd, e]

/-- The end of a cycle retires one entry, if one is in flight. -/
theorem finishCycle_count (h : s.CoreWF) : (finishCycle s).count = s.count - 1 := by
  have hcount : (finishCycle s).count =
      if ((execute s).robAt s.head).done then s.count - 1 else s.count :=
    commit_count (broadcast (execute s))
  rw [hcount]
  by_cases h0 : s.count = 0
  · rw [h0, ite_self]
  · rw [if_pos ((execute_head_done_iff h).mpr h0)]

/-- Settles O14: with nothing in flight the rest of the cycle only counts. -/
theorem haltFromEmptyRob : Obligations.HaltFromEmptyRob := fun _ h hc =>
  (exec_halt h).trans (congrArg _ (finishCycle_of_count_eq_zero h hc))

/-- Settles O17: no phase after Issue moves pc or tail, and Commit finds the head done exactly when something is
in flight. -/
theorem haltRunsTheOtherPhases : Obligations.HaltRunsTheOtherPhases := fun s h =>
  ⟨finishCycle s, exec_halt h, rfl, finishCycle_pc s, finishCycle_tail s, finishCycle_count h⟩

end Sys2Proof.Machine
end

section
/-! The words after a HALT at or after pc (R165): a step reads the word at pc, and W9 needs no HALT beyond the one
there is. -/

namespace Sys2Proof.Machine

variable {s : State} {im : List Diw}

/-- Every clause but W9 asks of the sequence only that PROG_CAP is at most 2^PC_W. -/
theorem State.CoreWF.withIm (h : s.CoreWF) (hlen : im.length ≤ 2 ^ 32) : (s.withIm im).CoreWF := by
  obtain ⟨⟨hcfg, hrf, hrob, hrs, -, htags⟩, hclauses⟩ := h
  exact ⟨⟨hcfg, hrf, hrob, hrs, hlen, htags⟩, hclauses⟩

section SharedPrefix

variable {h : Nat} (htake : im.take (h + 1) = s.im.take (h + 1))

include htake

/-- Sequences that share the words up to index h read alike up to h. -/
theorem getElem?_of_take_eq {a : Nat} (ha : a ≤ h) : im[a]? = s.im[a]? := by
  have hlt : a < h + 1 := Nat.lt_succ_of_le ha
  rw [← List.getElem?_take_of_lt hlt, htake, List.getElem?_take_of_lt hlt]

/-- The HALT at index h is ahead of the pc in every sequence that shares the words up to it. -/
theorem w9_withIm_of_take_eq (hpc : s.pc.toNat ≤ h) (hhalt : isHaltWord (s.im.getD h 0) = true)
    (hh : h < s.im.length) : (s.withIm im).W9 := by
  have hword : im[h]? = s.im[h]? := getElem?_of_take_eq htake le_rfl
  have hlt : h < im.length := by
    rw [List.getElem?_eq_getElem hh] at hword
    exact (List.getElem?_eq_some_iff.mp hword).1
  refine ⟨hpc.trans_lt hlt, h, hlt, hpc, ?_⟩
  rwa [List.getD_eq_getElem?_getD, hword, ← List.getD_eq_getElem?_getD]

end SharedPrefix

/-- Settles O41: the other machine is well formed, reads the same word at pc, and no phase reads the sequence. -/
theorem wordsAfterHaltIgnored : Obligations.WordsAfterHaltIgnored := by
  intro s t h im hstep hpc hhalt hh htake hlen
  obtain ⟨⟨hs, -⟩, w, i, hw, hd, -, rfl⟩ := (step_next_iff s t).mp hstep
  have hwf : (s.withIm im).WF := ⟨hs.withIm hlen, w9_withIm_of_take_eq htake hpc hhalt hh⟩
  have hword : im[s.pc.toNat]? = some w := (getElem?_of_take_eq htake hpc).trans hw
  calc step (s.withIm im)
      _ = .next (finishCycle (issuePhase i (s.withIm im))) := step_eq_next hwf hword hd
      _ = .next ((finishCycle (issuePhase i s)).withIm im) := by rw [issuePhase_withIm, finishCycle_withIm]

end Sys2Proof.Machine
end

section
/-! The refusals of a step and of a run (R174 to R176): a start state that is not well formed is refused before
its word is read, and a word that decodes as Invalid before Issue. -/

namespace Sys2Proof.Machine

variable {s : State} {why : Refusal}

/-! ### States that are not well formed -/

/-- A step refuses what the check of its start state refuses. -/
theorem step_of_startRefusal (h : s.startRefusal = some why) : step s = .refused why := by
  simp only [step, fetch, h]

/-- The driver's run, for every fuel: the check of the start state, the stop test, then a step if there is fuel. -/
theorem driverRun_eq (maxCycles n : Nat) (s : State) :
    driverRun maxCycles n s =
      match s.startRefusal with
      | some why => .refused why
      | none =>
        if s.drained then .complete s
        else if s.capped maxCycles then .truncated s
        else
          match n with
          | 0 => .running s
          | n + 1 =>
            match step s with
            | .next t => driverRun maxCycles n t
            | .refused why => .refused why
            | .fault f => nomatch f := by
  -- Lean's own equation for `driverRun` does not check within the heartbeat limit
  cases n <;> (delta driverRun; rfl)

/-- The driver's run refuses what the check of its start state refuses, whatever its cap and its fuel. -/
theorem driverRun_of_startRefusal (h : s.startRefusal = some why) (maxCycles n : Nat) :
    driverRun maxCycles n s = .refused why := by
  rw [driverRun_eq, h]

/-- The host's run refuses at its first step what a step refuses. -/
theorem coreRun_of_step_refused (h : step s = .refused why) (n : Nat) :
    Host.Core.run Sys2Proof.core (n + 1) s = .refused why := by
  simp only [Host.Core.run, show Sys2Proof.core.step s = .refused why from h]

/-- A cycle of any instruction makes the check of every clause but W9 itself. -/
theorem exec_of_not_coreWF (h : ¬ s.CoreWF) (i : Instr) : exec i s = .refused .illFormedState := by
  rw [exec_eq_runCycle, runCycle, if_neg (mt (coreOk_iff s).mp h)]

/-- A run of no steps from a well-formed state makes the stop test alone. -/
theorem driverRun_zero (h : s.WF) (maxCycles : Nat) :
    driverRun maxCycles 0 s =
      if s.drained then .complete s else if s.capped maxCycles then .truncated s else .running s := by
  rw [driverRun_eq, (startRefusal_eq_none_iff s).mpr h]

/-- W9 fails when pc is beyond the sequence, and when no word from pc on is a HALT. -/
theorem not_w9_of_no_halt_ahead
    (h : s.im.length ≤ s.pc.toNat ∨
      ∀ (a : Nat) (w : Diw), s.pc.toNat ≤ a → s.im[a]? = some w → opField w ≠ 5) : ¬ s.W9 := by
  rintro ⟨hpc, a, ha, hpca, hhalt⟩
  obtain hlen | hnone := h
  · exact absurd hpc (Nat.not_lt.mpr hlen)
  · rw [List.getD_eq_getElem _ _ ha] at hhalt
    exact hnone a _ hpca (List.getElem?_eq_getElem ha) (beq_iff_eq.mp hhalt)

/-- Settles O56: both runs start with the check of the start state, and from a well-formed state the stop test
alone ends no run in a refusal. -/
theorem illFormedStartsRefuseTheRun : Obligations.IllFormedStartsRefuseTheRun := by
  intro s maxCycles n
  have hruns : ∀ why, s.startRefusal = some why → driverRun maxCycles n s = .refused why ∧
      Host.Core.run Sys2Proof.core (n + 1) s = .refused why := fun _ hr =>
    ⟨driverRun_of_startRefusal hr maxCycles n, coreRun_of_step_refused (step_of_startRefusal hr) n⟩
  refine ⟨fun hcore => ?_, fun hcore h9 => ?_, fun h why => ?_⟩
  · exact hruns _ ((startRefusal_eq_illFormed_iff s).mpr hcore)
  · exact hruns _ ((startRefusal_eq_noHalt_iff s).mpr ⟨hcore, h9⟩)
  · rw [driverRun_zero h]
    split_ifs <;> nofun

/-- Settles O39: the step finds the broken clause before it reads the word, and each instruction's cycle finds it
too. -/
theorem illFormedStatesRefused : Obligations.IllFormedStatesRefused := fun s h =>
  ⟨step_of_startRefusal ((startRefusal_eq_illFormed_iff s).mpr h), exec_of_not_coreWF h⟩

/-- Settles O38: both premises break W9, and nothing else is broken. -/
theorem noHaltAheadRefused : Obligations.NoHaltAheadRefused := fun s hcore h =>
  step_of_startRefusal ((startRefusal_eq_noHalt_iff s).mpr ⟨hcore, not_w9_of_no_halt_ahead h⟩)

/-! ### Words that are invalid -/

/-- A step of a well-formed state refuses an Invalid word with the verdict's reason. -/
theorem step_of_decode_invalid {w : Diw} {bad : Invalid} (h : s.WF) (hw : s.im[s.pc.toNat]? = some w)
    (hd : decode s.cfg.nregs w = .invalid bad) : step s = .refused (.ofInvalid bad) := by
  have hstart := (startRefusal_eq_none_iff s).mpr h
  simp only [step, fetch, hstart, State.imRead, hw, decodeFetched, hd]

/-- A format-RR word with a register field of NREGS or more is Invalid (R72). -/
theorem decode_rr_out_of_range {n : Nat} {w : Diw} (hop : (opField w).toNat ≤ 3)
    (h : n ≤ (rdField w).toNat ∨ n ≤ (rjField w).toNat ∨ n ≤ (rkField w).toNat) :
    decode n w = .invalid .registerOutOfRange := by
  rw [decode_rr n hop]
  refine checkRegs_of_not_wellFormed fun hwf => ?_
  obtain ⟨hd, hj, hk⟩ := (rrInstr_wellFormed_iff ..).mp hwf
  omega

/-- A LOAD-IMM word with an RD field of NREGS or more is Invalid (R72). -/
theorem decode_loadImm_out_of_range {n : Nat} {w : Diw} (hop : opField w = 4) (h : n ≤ (rdField w).toNat) :
    decode n w = .invalid .registerOutOfRange := by
  rw [decode_loadImm n hop]
  exact checkRegs_of_not_wellFormed fun hwf => absurd ((loadImm_wellFormed_iff ..).mp hwf) (Nat.not_lt.mpr h)

/-- Settles O37: the three clauses are the three ways a word is Invalid. -/
theorem invalidWordsRefused : Obligations.InvalidWordsRefused := fun s _ h hw =>
  ⟨fun hop => step_of_decode_invalid h hw (decode_reserved s.cfg.nregs hop),
    fun hop hregs => step_of_decode_invalid h hw (decode_rr_out_of_range hop hregs),
    fun hop hrd => step_of_decode_invalid h hw (decode_loadImm_out_of_range hop hrd)⟩

end Sys2Proof.Machine
end

section
/-! The rest of the cycle keeps the clauses of WF (R195): Execute, Broadcast and Commit each keep W1 to W5, W7 and W8,
and Broadcast restores W6, since the tags it leaves name entries that are still unready. -/

namespace Sys2Proof.Machine

section Clauses

variable {s : State}

theorem State.CoreWF.phaseWF (h : s.CoreWF) : s.PhaseWF :=
  ⟨h.shape, h.w1, h.w2, h.w3, h.w4, h.w5, h.w7, h.w8⟩

/-- Between the phases W6 is the one clause missing. -/
theorem State.PhaseWF.coreWF (h : s.PhaseWF) (h6 : s.W6) : s.CoreWF := by
  obtain ⟨hshape, h1, h2, h3, h4, h5, h7, h8⟩ := h
  exact ⟨hshape, h1, h2, h3, h4, h5, h6, h7, h8⟩

end Clauses

/-! ### Execute -/

@[simp] theorem station_execute_j (st : Station) : st.execute.j = st.j := by
  unfold Station.execute; split <;> rfl

@[simp] theorem station_execute_k (st : Station) : st.execute.k = st.k := by
  unfold Station.execute; split <;> rfl

/-- The stations still occupied after Execute are those that wait for an operand. -/
theorem station_execute_occ_iff (st : Station) : st.execute.occ = true ↔ st.occ = true ∧ st.eligible = false := by
  cases he : st.eligible with
  | true => simp [station_execute_of_eligible he]
  | false => simp [station_execute_of_not_eligible he]

section Execute

variable {s : State} (h : s.CoreWF)

include h

/-- The entry a waiting station computes for gets no value this cycle. -/
theorem resultFor_of_waiting {m : Nat} (hm : m < s.cfg.rsSize) (ho : (s.rsAt m).occ = true)
    (he : (s.rsAt m).eligible = false) : s.resultFor (s.rsAt m).dest = none := by
  simp [resultFor_of_feeds h hm ((feeds_iff _ _ _).mpr ⟨ho, rfl⟩), he]

/-- The entry an eligible station computes for gets a value: the station holds an operation kind (W7). -/
theorem resultFor_of_eligible {m : Nat} (hm : m < s.cfg.rsSize) (he : (s.rsAt m).eligible = true) :
    (s.resultFor (s.rsAt m).dest).isSome = true := by
  obtain ⟨ho, -⟩ := (eligible_iff _).mp he
  obtain ⟨hlt, hu, -⟩ := h.w4 m hm ho
  obtain ⟨hrob, hrs⟩ := h.w7
  obtain ⟨hop, -⟩ := hrob _ hlt hu
  rw [resultFor_of_feeds h hm ((feeds_iff _ _ _).mpr ⟨ho, rfl⟩), if_pos he, Station.result, Option.isSome_map,
    hrs m hm ho]
  exact hop

theorem execute_shape : (execute s).Shape := by
  obtain ⟨hok, hrf, hrob, hrs, him, hfit⟩ := h.shape
  refine ⟨hok, hrf, by simpa using hrob, by simpa using hrs, him, fun m hm => ?_⟩
  rw [rsAt_execute s m (h.rs_length ▸ hm), station_execute_dest, station_execute_j, station_execute_k]
  exact hfit m hm

theorem execute_w2 : (execute s).W2 := by
  intro n hn
  rw [robAt_execute s n (h.rob_length ▸ hn), executeEntry_inuse]
  exact h.w2 n hn

/-- An entry that becomes ready is in use: its station was occupied (W4). -/
theorem execute_w3 : (execute s).W3 := by
  intro n hn hr
  have hn' : n < s.rob.length := h.rob_length ▸ hn
  by_contra hu
  rw [robAt_execute s n hn', executeEntry_inuse] at hu
  have hnone : s.resultFor n = none := by
    refine resultFor_none fun m hm he => ?_
    rintro rfl
    obtain ⟨-, hused, -⟩ := h.w4 m (h.rs_length ▸ hm) ((eligible_iff _).mp he).1
    exact hu hused
  rw [robAt_execute s n hn', executeEntry_of_none hnone] at hr
  exact hu (h.w3 n hn hr)

theorem execute_w4 : (execute s).W4 := by
  intro m hm
  rw [rsAt_execute s m (h.rs_length ▸ hm), station_execute_occ_iff, station_execute_dest]
  rintro ⟨ho, he⟩
  obtain ⟨hlt, hentry⟩ := h.w4 m hm ho
  rw [robAt_execute s _ (h.rob_length ▸ hlt), executeEntry_of_none (resultFor_of_waiting h hm ho he)]
  exact ⟨hlt, hentry⟩

/-- After Execute a station feeds what it fed, unless it has executed. -/
theorem execute_feeds_iff {m n : Nat} (hm : m < s.cfg.rsSize) :
    (execute s).feeds m n = true ↔ s.feeds m n = true ∧ (s.rsAt m).eligible = false := by
  simp only [feeds_iff, rsAt_execute s m (h.rs_length ▸ hm), station_execute_occ_iff, station_execute_dest]
  exact and_right_comm

/-- An entry still unready was unready, and its station has not executed. -/
theorem execute_w5 : (execute s).W5 := by
  intro n hn
  rw [robAt_execute s n (h.rob_length ▸ hn), executeEntry_inuse, executeEntry_ready, Bool.or_eq_false_iff]
  rintro hu ⟨hr, hnone⟩
  obtain ⟨m, hm, hf, huniq⟩ := h.w5 n hn hu hr
  refine ⟨m, hm, (execute_feeds_iff h hm).mpr ⟨hf, ?_⟩, fun m' hm' hf' => ?_⟩
  · by_contra he
    obtain ⟨-, rfl⟩ := (feeds_iff _ _ _).mp hf
    simp [resultFor_of_eligible h hm (by simpa using he)] at hnone
  · exact huniq m' hm' ((execute_feeds_iff h hm').mp hf').1

theorem execute_w7 : (execute s).W7 := by
  obtain ⟨hrob, hrs⟩ := h.w7
  refine ⟨fun n hn => ?_, fun m hm => ?_⟩
  · rw [robAt_execute s n (h.rob_length ▸ hn), executeEntry_inuse, executeEntry_op, executeEntry_dest]
    exact hrob n hn
  · rw [rsAt_execute s m (h.rs_length ▸ hm), station_execute_occ_iff, station_execute_op, station_execute_dest]
    rintro ⟨ho, -⟩
    obtain ⟨hlt, -⟩ := h.w4 m hm ho
    rw [robAt_execute s _ (h.rob_length ▸ hlt), executeEntry_op]
    exact hrs m hm ho

theorem execute_w8 : (execute s).W8 := by
  intro m hm
  rw [rsAt_execute s m (h.rs_length ▸ hm), station_execute_occ_iff, station_execute_op, station_execute_j,
    station_execute_k]
  rintro ⟨ho, -⟩
  exact h.w8 m hm ho

theorem execute_phaseWF : (execute s).PhaseWF :=
  ⟨execute_shape h, h.w1, execute_w2 h, execute_w3 h, execute_w4 h, execute_w5 h, execute_w7 h, execute_w8 h⟩

end Execute

/-! ### Broadcast -/

@[simp] theorem hearStation_j_q (s : State) (st : Station) : (s.hearStation st).j.q = st.j.q := by
  unfold State.hearStation; split <;> simp

@[simp] theorem hearStation_k_q (s : State) (st : Station) : (s.hearStation st).k.q = st.k.q := by
  unfold State.hearStation; split <;> simp

theorem hear_of_value {s : State} {x : OperandFields} (hx : x.qv = false) : s.hear x = x := by
  simp [State.hear, hx]

/-- Broadcast writes operands only, and no station's code, destination or occupancy. -/
theorem broadcast_phaseWF {s : State} (h : s.PhaseWF) : (broadcast s).PhaseWF := by
  have hrs := h.rs_length
  obtain ⟨⟨hok, hrf, hrob, hlen, him, hfit⟩, h1, h2, h3, h4, h5, ⟨h7, h7'⟩, h8⟩ := h
  have hat : ∀ m, m < s.cfg.rsSize → (broadcast s).rsAt m = s.hearStation (s.rsAt m) := fun m hm =>
    rsAt_broadcast s m (hrs ▸ hm)
  have hfeeds : ∀ m n, m < s.cfg.rsSize → (broadcast s).feeds m n = s.feeds m n := fun m n hm => by
    simp only [State.feeds, hat m hm, hearStation_occ, hearStation_dest]
  refine ⟨⟨hok, hrf, hrob, by simpa using hlen, him, fun m hm => ?_⟩, h1, h2, h3, fun m hm => ?_,
    fun n hn hu hr => ?_, ⟨h7, fun m hm => ?_⟩, fun m hm => ?_⟩
  · rw [hat m hm, hearStation_dest, hearStation_j_q, hearStation_k_q]
    exact hfit m hm
  · rw [hat m hm, hearStation_occ, hearStation_dest]
    exact h4 m hm
  · obtain ⟨m, hm, hf, huniq⟩ := h5 n hn hu hr
    exact ⟨m, hm, (hfeeds m n hm).trans hf, fun m' hm' hf' => huniq m' hm' ((hfeeds m' n hm').symm.trans hf')⟩
  · rw [hat m hm, hearStation_occ, hearStation_op, hearStation_dest]
    exact h7' m hm
  · rw [hat m hm, hearStation_occ, hearStation_op]
    intro ho hop
    obtain ⟨hj, hk⟩ := h8 m hm ho hop
    rw [hearStation_of_occ ho, hear_of_value hj, hear_of_value hk]
    exact ⟨hj, hk⟩

/-- A legal tag that Broadcast leaves is still legal: its entry has not become ready in Execute. -/
theorem hear_tagOk {s : State} (h : s.CoreWF) {x : OperandFields} {d : Nat} (hx : s.TagOk x d) :
    (broadcast (execute s)).TagOk ((execute s).hear x) d := by
  intro hq
  obtain ⟨-, -, e⟩ | ⟨hn, e⟩ := hear_cases (execute s) x
  · simp [e] at hq
  · rw [e] at hq ⊢
    obtain ⟨hlt, hu, -, hage⟩ := (isOlderProducer_iff _ _ _).mp (hx hq)
    rw [robAt_execute s _ (h.rob_length ▸ hlt), done_eq_false_iff, executeEntry_inuse] at hn
    rw [isOlderProducer_iff, robAt_broadcast, robAt_execute s _ (h.rob_length ▸ hlt), executeEntry_inuse]
    exact ⟨hlt, hu, by simpa [hq, hu] using hn, hage⟩

theorem broadcast_execute_w6 {s : State} (h : s.CoreWF) : (broadcast (execute s)).W6 := by
  intro m hm
  have hm' : m < s.rs.length := h.rs_length ▸ hm
  rw [rsAt_broadcast _ m (by simpa using hm'), rsAt_execute s m hm', hearStation_occ, hearStation_dest,
    station_execute_dest]
  intro hocc
  obtain ⟨ho, -⟩ := (station_execute_occ_iff _).mp hocc
  obtain ⟨hj, hk⟩ := h.w6 m hm ho
  rw [hearStation_of_occ hocc, station_execute_j, station_execute_k]
  exact ⟨hear_tagOk h hj, hear_tagOk h hk⟩

theorem broadcast_execute_coreWF {s : State} (h : s.CoreWF) : (broadcast (execute s)).CoreWF :=
  (broadcast_phaseWF (execute_phaseWF h)).coreWF (broadcast_execute_w6 h)

/-! ### Commit -/

@[simp] theorem commit_rob_length (s : State) : (commit s).rob.length = s.rob.length := by
  obtain ⟨-, e⟩ | ⟨-, e⟩ := commit_cases s <;> simp [e]

@[simp] theorem commit_rsAt (s : State) (m : Nat) : (commit s).rsAt m = s.rsAt m := rsAt_congr (commit_rs s) m

@[simp] theorem commit_feeds (s : State) (m n : Nat) : (commit s).feeds m n = s.feeds m n := by
  simp [State.feeds]

@[simp] theorem retire_inuse (e : RobEntry) : e.retire.inuse = false := rfl
@[simp] theorem retire_ready (e : RobEntry) : e.retire.ready = false := rfl

/-- An unready entry is not a head that retires. -/
theorem ne_head_of_unready {s : State} (hd : (s.robAt s.head).done = true) {n : Nat} (hr : (s.robAt n).ready = false) :
    n ≠ s.head := by
  rintro rfl
  simp [RobEntry.done, hr] at hd

section Commit

variable {s : State} (h : s.CoreWF)

include h

theorem age_pos_of_ne_head {n : Nat} (hn : n < s.cfg.robSize) (hne : n ≠ s.head) : 0 < s.age n := by
  rw [age_eq_ite h.head_lt hn]
  have := h.head_lt
  split <;> omega

theorem commit_shape : (commit s).Shape := by
  obtain ⟨hok, hrf, hrob, hrs, him, hfit⟩ := h.shape
  simpa [State.Shape, hrf, hrob, hrs] using ⟨hok, him, hfit⟩

theorem commit_w8 : (commit s).W8 := by
  intro m hm
  rw [commit_cfg] at hm
  rw [commit_rsAt]
  exact h.w8 m hm

variable (hd : (s.robAt s.head).done = true)

include hd

theorem count_pos_of_head_done : 0 < s.count :=
  Nat.pos_of_ne_zero ((head_inuse_iff h).mp ((done_iff _).mp hd).1)

/-- The entries after the head has retired. -/
theorem robAt_commit (n : Nat) :
    (commit s).robAt n = if n = s.head then (s.robAt s.head).retire else s.robAt n := by
  split
  · subst n
    exact robAt_commit_head s (h.rob_length ▸ h.head_lt) hd
  · exact robAt_commit_ne s n ‹_›

/-- Once the head retires, the age of every other entry drops by one, and the old head's entry comes last. -/
theorem age_commit {n : Nat} (hn : n < s.cfg.robSize) :
    (commit s).age n = if n = s.head then s.cfg.robSize - 1 else s.age n - 1 := by
  have hlt := h.head_lt
  have hhead : (commit s).head = if s.head + 1 = s.cfg.robSize then 0 else s.head + 1 := by
    rw [commit_head, if_pos hd]
    split
    · rw [‹s.head + 1 = _›, Nat.mod_self]
    · exact Nat.mod_eq_of_lt (by omega)
  have hhead_lt : (commit s).head < (commit s).cfg.robSize := by
    rw [hhead, commit_cfg]
    split <;> omega
  rw [age_eq_ite hhead_lt (by simpa using hn), age_eq_ite hlt hn, hhead, commit_cfg]
  split_ifs <;> omega

theorem commit_w1 : (commit s).W1 := by
  obtain ⟨hle, hh, ht, htail⟩ := h.w1
  have hpos := count_pos_of_head_done h hd
  simp only [State.W1, commit_cfg, commit_tail, commit_head, commit_count, if_pos hd]
  refine ⟨by omega, Nat.mod_lt _ (by omega), ht, ?_⟩
  rw [htail, Nat.mod_add_mod]
  congr 1
  omega

theorem commit_w2 : (commit s).W2 := by
  intro n hn
  rw [commit_cfg] at hn
  obtain ⟨hle, -⟩ := h.w1
  have hpos := count_pos_of_head_done h hd
  rw [robAt_commit h hd, age_commit h hd hn, commit_count, if_pos hd]
  split
  case isTrue => exact iff_of_false Bool.false_ne_true (by omega)
  case isFalse hne =>
    have := age_pos_of_ne_head h hn hne
    rw [h.w2 n hn]
    omega

theorem commit_w3 : (commit s).W3 := by
  intro n hn
  rw [commit_cfg] at hn
  rw [robAt_commit h hd]
  split
  · exact nofun
  · exact h.w3 n hn

theorem commit_w4 : (commit s).W4 := by
  intro m hm ho
  rw [commit_cfg] at hm
  rw [commit_rsAt] at ho ⊢
  obtain ⟨hlt, hu, hr⟩ := h.w4 m hm ho
  rw [commit_cfg, robAt_commit_ne s _ (ne_head_of_unready hd hr)]
  exact ⟨hlt, hu, hr⟩

theorem commit_w5 : (commit s).W5 := by
  intro n hn
  simp only [commit_cfg, commit_feeds] at hn ⊢
  rw [robAt_commit h hd]
  split
  · exact nofun
  · exact h.w5 n hn

/-- The tags Commit finds name unready entries, so none names the head, and the order of ages stays. -/
theorem tagOk_commit {x : OperandFields} {d : Nat} (hlt : d < s.cfg.robSize) (hne : d ≠ s.head)
    (hx : s.TagOk x d) : (commit s).TagOk x d := by
  intro hq
  obtain ⟨hqlt, hu, hr, hage⟩ := (isOlderProducer_iff _ _ _).mp (hx hq)
  have hqne := ne_head_of_unready hd hr
  have hqpos := age_pos_of_ne_head h hqlt hqne
  rw [isOlderProducer_iff, robAt_commit_ne s _ hqne, age_commit h hd hqlt, age_commit h hd hlt, if_neg hqne,
    if_neg hne, commit_cfg]
  exact ⟨hqlt, hu, hr, by omega⟩

theorem commit_w6 : (commit s).W6 := by
  intro m hm ho
  rw [commit_cfg] at hm
  rw [commit_rsAt] at ho ⊢
  obtain ⟨hlt, -, hr⟩ := h.w4 m hm ho
  obtain ⟨hj, hk⟩ := h.w6 m hm ho
  have hne := ne_head_of_unready hd hr
  exact ⟨tagOk_commit h hd hlt hne hj, tagOk_commit h hd hlt hne hk⟩

theorem commit_w7 : (commit s).W7 := by
  obtain ⟨hrob, hrs⟩ := h.w7
  refine ⟨fun n hn => ?_, fun m hm ho => ?_⟩
  · rw [commit_cfg] at hn ⊢
    rw [robAt_commit h hd]
    split
    · exact nofun
    · exact hrob n hn
  · rw [commit_cfg] at hm
    rw [commit_rsAt] at ho ⊢
    obtain ⟨-, -, hr⟩ := h.w4 m hm ho
    rw [robAt_commit_ne s _ (ne_head_of_unready hd hr)]
    exact hrs m hm ho

omit hd

/-- Commit keeps every clause: it retires a head that is done, and else changes nothing. -/
theorem commit_coreWF : (commit s).CoreWF := by
  by_cases hd : (s.robAt s.head).done = true
  · exact ⟨commit_shape h, commit_w1 h hd, commit_w2 h hd, commit_w3 h hd, commit_w4 h hd, commit_w5 h hd,
      commit_w6 h hd, commit_w7 h hd, commit_w8 h⟩
  · rwa [commit_of_not_done (by simpa using hd)]

end Commit

/-! ### The cycle -/

/-- CycleInc writes the cycle number alone, of which no clause speaks. -/
theorem finishCycle_coreWF {s : State} (h : s.CoreWF) : (finishCycle s).CoreWF :=
  commit_coreWF (broadcast_execute_coreWF h)

/-- Settles O48: W6 alone can fail, and only between Execute and Broadcast, so Execute and Commit start from
every clause. -/
theorem phasesKeepTheirClauses : Obligations.PhasesKeepTheirClauses := by
  rintro i s s1 s2 s3 s4 hs hi rfl rfl rfl rfl
  have h1 := issuePhase_coreWF hs hi
  have h3 := broadcast_execute_coreWF h1
  exact ⟨h1.phaseWF, execute_phaseWF h1, h3.phaseWF, (commit_coreWF h3).phaseWF⟩

/-- A word that decodes to another instruction is no HALT's word. -/
theorem isHaltWord_eq_false_of_decode {n : Nat} {w : Diw} {i : Instr} (hd : decode n w = .ok i) (hne : i ≠ .halt) :
    isHaltWord w = false := by
  by_contra hh
  have hhalt := decode_of_isHaltWord (by simpa using hh) n
  exact hne (Verdict.ok.inj (hd.symm.trans hhalt))

/-- A step keeps W9: it passes no HALT, since HALT does not issue (R26, R102). -/
theorem step_keeps_w9 {s t : State} (h : s.W9) (hstep : step s = .next t) : t.W9 := by
  obtain ⟨w, i, hw, hd, hpc, hlt⟩ := pcNeverWraps s t hstep
  have him : t.im = s.im := by
    obtain ⟨-, -, i, -, -, -, rfl⟩ := (step_next_iff s t).mp hstep
    rw [finishCycle_im, issuePhase_im]
  obtain ⟨-, a, ha, hpa, hhalt⟩ := h
  refine ⟨him ▸ hlt, a, him ▸ ha, ?_, him ▸ hhalt⟩
  rw [hpc]
  split
  case isTrue hi =>
    have hword : isHaltWord w = false := isHaltWord_eq_false_of_decode hd <| by
      rintro rfl
      simp [issuesNow_halt] at hi
    have hne : a ≠ s.pc.toNat := by
      rintro rfl
      simp [List.getD_eq_getElem?_getD, hw, hword] at hhalt
    omega
  case isFalse => omega

/-- Settles O47: Issue and the rest of the cycle keep every clause but W9, and a step keeps W9. -/
theorem stepKeepsWellFormed : Obligations.StepKeepsWellFormed := by
  rintro s t ⟨hs, h9⟩ hstep
  obtain ⟨-, -, i, -, -, hi, rfl⟩ := (step_next_iff s t).mp hstep
  exact ⟨finishCycle_coreWF (issuePhase_coreWF hs hi), step_keeps_w9 h9 hstep⟩

end Sys2Proof.Machine
end

section
/-! How many entries are in flight (R196, R198, R199): a cycle adds the one it issues and retires one, if there is one
to retire. -/

namespace Sys2Proof.Machine

variable {i : Instr} {s : State}

/-- The count after a whole cycle (R198). -/
theorem finishCycle_issuePhase_count (h : s.CoreWF) (hi : i.wellFormed s.cfg.nregs = true) :
    (finishCycle (issuePhase i s)).count = s.count + (if issuesNow i s then 1 else 0) - 1 := by
  rw [finishCycle_count (issuePhase_coreWF h hi), issuePhase_count]

/-- Settles O49: a tag of the head's station would name an older entry than the oldest, so an in-flight head is done
by Commit. -/
theorem countLaw : Obligations.CountLaw := by
  rintro i s t s3 c h rfl rfl
  obtain ⟨hs, hi, rfl⟩ := (exec_next_iff i s t).mp h
  refine ⟨fun n hn hf => ?_, ?_, finishCycle_issuePhase_count hs hi⟩
  · obtain ⟨-, hj, hk⟩ := (eligible_iff _).mp (head_station_eligible hs hn hf)
    exact ⟨hj, hk⟩
  · rw [← issuePhase_count, gt_iff_lt, Nat.pos_iff_ne_zero]
    exact execute_head_done_iff (issuePhase_coreWF hs hi)

/-- Settles O51: a cycle issues at most one instruction and then retires one, and a head in use means that something
is in flight, so that it is done. -/
theorem countNeverIncreases : Obligations.CountNeverIncreases := by
  rintro i s t s3 h rfl
  obtain ⟨hs, hi, rfl⟩ := (exec_next_iff i s t).mp h
  have hs1 := issuePhase_coreWF hs hi
  refine ⟨?_, fun hu => ?_⟩
  · rw [finishCycle_issuePhase_count hs hi]
    split <;> omega
  · have hc : (issuePhase i s).count ≠ 0 := by
      rwa [← head_inuse_iff hs1, ← executeEntry_inuse (s := issuePhase i s),
        ← robAt_execute _ _ (hs1.rob_length ▸ hs1.head_lt)]
    exact ((done_iff _).mp ((execute_head_done_iff hs1).mpr hc)).2

/-- Settles O52: no entry is in use, so no station is occupied and no register has a producer in flight, and the one
entry a step may add is retired in it. -/
theorem emptyRobStaysEmpty : Obligations.EmptyRobStaysEmpty := by
  intro s h hc
  refine ⟨tail_eq_head h hc, fun n hn => occ_of_count_eq_zero h hc hn, ?_, resolve_of_count_eq_zero h hc,
    fun t hstep => ?_⟩
  · have hlt := h.head_lt
    have hfull : s.robFull = false := beq_false_of_ne (by omega)
    rw [State.stalls, hfull, freeStation_of_count_eq_zero h hc]
    rfl
  · obtain ⟨-, -, i, -, -, hi, rfl⟩ := (step_next_iff s t).mp hstep
    rw [finishCycle_issuePhase_count h hi, hc]
    split <;> rfl

end Sys2Proof.Machine
end

section
/-! Draining (R165, R199): while pc is on a HALT, each step retires one entry and leaves pc. -/

namespace Sys2Proof.Machine

variable {s : State}

/-- The host's run takes a step that answers and goes on from there. -/
theorem coreRun_of_step_next {t : State} (h : step s = .next t) (n : Nat) :
    Host.Core.run Sys2Proof.core (n + 1) s = Host.Core.run Sys2Proof.core n t := by
  simp only [Host.Core.run, show Sys2Proof.core.step s = .next t from h]

theorem coreRun_zero (s : State) : Host.Core.run Sys2Proof.core 0 s = .next s := rfl

theorem issuePhase_halt (s : State) : issuePhase .halt s = s := rfl

theorem step_on_halt (h : s.WF) (hhalt : s.haltNext = some true) : step s = .next (finishCycle s) := by
  obtain ⟨w, hw, hword⟩ := (haltNext_eq_some_iff s true).mp hhalt
  rw [step_eq_next h hw (decode_of_isHaltWord hword s.cfg.nregs), issuePhase_halt]

@[simp] theorem finishCycle_haltNext (s : State) : (finishCycle s).haltNext = s.haltNext := by
  simp [State.haltNext, State.imData, State.imAddr, State.imRead]

/-- Settles O50: by induction on the number of steps, each a cycle of HALT, which keeps the premises. -/
theorem haltDrainsTheRob : Obligations.HaltDrainsTheRob := by
  intro s n h hhalt hn
  induction n generalizing s with
  | zero => exact ⟨s, coreRun_zero s, rfl, rfl, hhalt, h⟩
  | succ n ih =>
    obtain ⟨hs, -⟩ := id h
    have hstep := step_on_halt h hhalt
    have hcount := finishCycle_count hs
    obtain ⟨t, hrun, hcount', hpc, hhalt', hwf⟩ := ih (finishCycle s) (stepKeepsWellFormed s _ h hstep)
      (by rwa [finishCycle_haltNext]) (by omega)
    exact ⟨t, (coreRun_of_step_next hstep n).trans hrun, by omega, by rwa [finishCycle_pc] at hpc, hhalt', hwf⟩

end Sys2Proof.Machine
end

section
/-! The core against the sequential machine (R92, R196, R197): with nothing in flight each step is one instruction of
the sequential machine and leaves nothing in flight, up to the first HALT. -/

namespace Sys2Proof.Machine

/-! ### The program ahead of pc -/

/-- What a sequence that meets the loader's precondition begins with: a HALT, or an instruction and such a sequence
(R93). -/
theorem programOf_cases {n : Nat} {im : List Diw} {is : List Instr} (h : programOf n im = some is) :
    ∃ w ws, im = w :: ws ∧
      ((is = [] ∧ isHaltWord w = true) ∨
        ∃ i js, is = i :: js ∧ i ≠ .halt ∧ decode n w = .ok i ∧ programOf n ws = some js) := by
  cases im with
  | nil => cases h
  | cons w ws =>
    refine ⟨w, ws, rfl, ?_⟩
    unfold programOf at h
    split at h
    case h_1 hd => exact .inl ⟨(Option.some.inj h).symm, isHaltWord_of_decode hd⟩
    case h_2 i hne hd =>
      obtain ⟨js, hjs, rfl⟩ := Option.map_eq_some_iff.mp h
      exact .inr ⟨i, js, rfl, hne, hd, hjs⟩
    case h_3 => cases h

/-- The machine stands before the instructions `is` with nothing in flight: they are what the sequence holds from pc
up to the first HALT. -/
structure State.Before (s : State) (is : List Instr) : Prop where
  wf : s.WF
  empty : s.count = 0
  program : programOf s.cfg.nregs (s.im.drop s.pc.toNat) = some is

/-- The word at pc and the words after it. -/
theorem getElem?_and_drop_of_drop_eq_cons {α : Type} {l ws : List α} {a : Nat} {w : α} (h : l.drop a = w :: ws) :
    l[a]? = some w ∧ l.drop (a + 1) = ws := by
  refine ⟨?_, ?_⟩
  · rw [← List.head?_drop, h, List.head?_cons]
  · rw [← List.tail_drop, h, List.tail_cons]

variable {s : State} {i : Instr} {is js : List Instr}

/-- With no instruction left, HALT is next. -/
theorem State.Before.haltNext_of_nil (h : s.Before []) : s.haltNext = some true := by
  obtain ⟨w, ws, hdrop, ⟨-, hword⟩ | ⟨i, js, hne, -⟩⟩ := programOf_cases h.program
  · exact (haltNext_eq_some_iff s true).mpr ⟨w, (getElem?_and_drop_of_drop_eq_cons hdrop).1, hword⟩
  · cases hne

/-- The first instruction left stands at pc, and the others after it. -/
theorem State.Before.exists_word (h : s.Before (i :: is)) :
    ∃ w, s.im[s.pc.toNat]? = some w ∧ decode s.cfg.nregs w = .ok i ∧ i ≠ .halt ∧
      programOf s.cfg.nregs (s.im.drop (s.pc.toNat + 1)) = some is := by
  obtain ⟨w, ws, hdrop, ⟨hnil, -⟩ | ⟨i, js, hcons, hne, hd, hprog⟩⟩ := programOf_cases h.program
  · cases hnil
  · cases hcons
    obtain ⟨hw, hws⟩ := getElem?_and_drop_of_drop_eq_cons hdrop
    exact ⟨w, hw, hd, hne, hws ▸ hprog⟩

/-! ### One step -/

/-- With nothing in flight, a cycle retires its instruction at once, and the register it writes is the sequential
machine's. -/
theorem exec_eq_retiredAtOnce_seqExec (h : s.CoreWF) (hc : s.count = 0) (hi : i.wellFormed s.cfg.nregs = true)
    (hne : i ≠ .halt) :
    ∃ op rd vj vk v, exec i s = .next (retiredAtOnce op rd vj vk v s) ∧ s.rf.set rd.toNat v = seqExec i s.rf := by
  have hrr : ∀ op rd rj rk, kindOf i = some op → destOf i = some rd →
      operandsOf i s = some (resolve s rj, resolve s rk) →
      exec i s = .next (retiredAtOnce op.code rd (s.regAt rj) (s.regAt rk)
        (compute op (s.regAt rj) (s.regAt rk)) s) := by
    intro op rd rj rk hop hrd hjk
    rw [resolve_of_count_eq_zero h hc, resolve_of_count_eq_zero h hc] at hjk
    exact exec_eq_retiredAtOnce h hc hi hop hrd hjk
  cases i with
  | add rd rj rk => exact ⟨_, rd, _, _, _, hrr .add rd rj rk rfl rfl rfl, rfl⟩
  | sub rd rj rk => exact ⟨_, rd, _, _, _, hrr .sub rd rj rk rfl rfl rfl, rfl⟩
  | mul rd rj rk => exact ⟨_, rd, _, _, _, hrr .mul rd rj rk rfl rfl rfl, rfl⟩
  | div rd rj rk => exact ⟨_, rd, _, _, _, hrr .div rd rj rk rfl rfl rfl, rfl⟩
  | loadImm rd imm => exact ⟨_, rd, _, _, _, exec_eq_retiredAtOnce (op := .loadImm) h hc hi rfl rfl rfl, rfl⟩
  | halt => exact absurd rfl hne

/-- A step before the instruction `i` applies it and stands before the next one. -/
theorem State.Before.exists_step (h : s.Before (i :: is)) :
    ∃ t : State, step s = .next t ∧ t.Before is ∧ t.rf = seqExec i s.rf ∧
      t.pc.toNat = s.pc.toNat + 1 ∧ t.cycle = s.cycle + 1 := by
  obtain ⟨hs, h9⟩ := h.wf
  obtain ⟨w, hw, hd, hne, hprog⟩ := h.exists_word
  obtain ⟨op, rd, vj, vk, v, hexec, hrf⟩ :=
    exec_eq_retiredAtOnce_seqExec hs h.empty (decode_ok_wellFormed hd) hne
  obtain ⟨hsame, -⟩ := stepRunsTheDecodedInstruction s w i h.wf hw hd
  have hstep : step s = .next (retiredAtOnce op rd vj vk v s) := hsame.trans hexec
  have hpc : (s.pc + 1).toNat = s.pc.toNat + 1 := by
    have hword := isHaltWord_eq_false_of_decode hd hne
    obtain ⟨-, -, -, -, him, -⟩ := hs.shape
    rw [BitVec.toNat_add]
    exact Nat.mod_eq_of_lt ((pc_succ_lt_of_not_halt h9 hw hword).trans_le him)
  refine ⟨_, hstep, ⟨stepKeepsWellFormed s _ h.wf hstep, h.empty, ?_⟩, hrf, hpc, rfl⟩
  rw [← hpc] at hprog
  exact hprog

/-! ### Runs -/

/-- A run of as many steps as `is` has applies `is` in order and stands before the rest of the program. -/
theorem State.Before.exists_run (h : s.Before (is ++ js)) :
    ∃ t : State, Host.Core.run Sys2Proof.core is.length s = .next t ∧ t.Before js ∧ t.rf = seqRun is s.rf ∧
      t.pc.toNat = s.pc.toNat + is.length ∧ t.cycle = s.cycle + BitVec.ofNat 32 is.length := by
  induction is generalizing s with
  | nil => exact ⟨s, coreRun_zero s, h, rfl, rfl, (BitVec.add_zero _).symm⟩
  | cons i is ih =>
    obtain ⟨u, hstep, hu, hrf, hpc, hcycle⟩ := h.exists_step
    obtain ⟨t, hrun, ht, hrf', hpc', hcycle'⟩ := ih hu
    refine ⟨t, (coreRun_of_step_next hstep is.length).trans hrun, ht, ?_, ?_, ?_⟩
    · rw [hrf', hrf]
      rfl
    · rw [hpc', hpc, List.length_cons]
      omega
    · rw [hcycle', hcycle, List.length_cons, BitVec.ofNat_add]
      ac_rfl

/-- Settles O54: the run to the end of the program stands before no instruction. -/
theorem sequentialFromEmptyRob : Obligations.SequentialFromEmptyRob := by
  intro s is h hc hprog
  have hbefore : s.Before (is ++ []) := ⟨h, hc, by rwa [List.append_nil]⟩
  obtain ⟨t, hrun, ht, hrf, hpc, hcycle⟩ := hbefore.exists_run
  exact ⟨t, hrun, hrf, hpc, hcycle, ht.empty, ht.haltNext_of_nil⟩

/-! ### The driver's run -/

/-- The driver's run ends by condition (a) where HALT is next and nothing is in flight (R92). -/
theorem driverRun_of_drained (h : s.WF) (hd : s.drained = true) (maxCycles n : Nat) :
    driverRun maxCycles n s = .complete s := by
  rw [driverRun_eq, (startRefusal_eq_none_iff s).mpr h]
  simp [hd]

/-- Where neither stop condition holds, the driver's run takes a step and goes on (R92). -/
theorem driverRun_of_step_next {t : State} {maxCycles : Nat} (h : s.WF) (hd : s.drained = false)
    (hcap : s.capped maxCycles = false) (hstep : step s = .next t) (n : Nat) :
    driverRun maxCycles (n + 1) s = driverRun maxCycles n t := by
  rw [driverRun_eq, (startRefusal_eq_none_iff s).mpr h]
  simp [hd, hcap, hstep]

/-- Before an instruction that is no HALT, condition (a) fails. -/
theorem State.Before.not_drained (h : s.Before (i :: is)) : s.drained = false := by
  obtain ⟨w, hw, hd, hne, -⟩ := h.exists_word
  have hnext : s.haltNext = some false :=
    (haltNext_eq_some_iff s false).mpr ⟨w, hw, isHaltWord_eq_false_of_decode hd hne⟩
  simp [State.drained, hnext]

/-- If the cap leaves room for the program, the driver's run is the run to the program's end, and is complete
there. -/
theorem State.Before.driverRun_complete {t : State} {maxCycles : Nat} (h : s.Before is)
    (hrun : Host.Core.run Sys2Proof.core is.length s = .next t) (hcap : s.cycle.toNat + is.length ≤ maxCycles)
    (hwrap : s.cycle.toNat + is.length < 2 ^ 32) : driverRun maxCycles is.length s = .complete t := by
  induction is generalizing s with
  | nil =>
    obtain rfl := Host.Outcome.next.inj ((coreRun_zero s).symm.trans hrun)
    have hd : s.drained = true := by simp [State.drained, h.haltNext_of_nil, (robEmpty_iff s).mpr h.empty]
    exact driverRun_of_drained h.wf hd _ _
  | cons i is ih =>
    rw [List.length_cons] at hrun hcap hwrap ⊢
    obtain ⟨u, hstep, hu, -, -, hcycle⟩ := h.exists_step
    have hu_cycle : u.cycle.toNat = s.cycle.toNat + 1 := by
      rw [hcycle, BitVec.toNat_add]
      exact Nat.mod_eq_of_lt (by omega : s.cycle.toNat + 1 < 2 ^ 32)
    have hnot : s.capped maxCycles = false := beq_false_of_ne (by omega)
    rw [driverRun_of_step_next h.wf h.not_drained hnot hstep]
    exact ih hu ((coreRun_of_step_next hstep is.length).symm.trans hrun) (by omega) (by omega)

theorem before_resetWith {p : Params} {im : List Diw} (hp : p.Ok) (hlen : im.length ≤ 2 ^ 32)
    (hprog : programOf p.nregs im = some is) : (State.resetWith p im).Before is :=
  ⟨loadedResetWellFormed p im hp ⟨Option.isSome_of_eq_some hprog, hlen⟩, rfl, hprog⟩

/-- From reset, after `is` the pc and the cycle number are both the length of `is`: a pc is below 2^32, so the cycle
number has not wrapped. -/
theorem run_resetWith {p : Params} {im : List Diw} (h : (State.resetWith p im).Before (is ++ js)) :
    ∃ t : State, Host.Core.run Sys2Proof.core is.length (State.resetWith p im) = .next t ∧
      t.rf = seqRun is p.rfInit ∧ t.pc.toNat = is.length ∧ t.cycle.toNat = is.length := by
  obtain ⟨t, hrun, -, hrf, hpc, hcycle⟩ := h.exists_run
  have hpc' : t.pc.toNat = is.length := hpc.trans (Nat.zero_add _)
  have hlt : is.length < 2 ^ 32 := hpc' ▸ t.pc.isLt
  have hcycle' : t.cycle = BitVec.ofNat 32 is.length := hcycle.trans (BitVec.zero_add _)
  refine ⟨t, hrun, hrf, hpc', ?_⟩
  rw [hcycle', BitVec.toNat_ofNat, Nat.mod_eq_of_lt hlt]

/-- Settles O55: the first k steps apply the first k instructions, and the cap is not reached before the program's
end. -/
theorem sequentialFromReset : Obligations.SequentialFromReset := by
  intro p im is maxCycles hp hlen hprog hcap
  have h := before_resetWith hp hlen hprog
  refine ⟨fun k hk => ?_, ?_⟩
  · have hrun := run_resetWith (is := is.take k) (js := is.drop k) (by rwa [List.take_append_drop])
    rwa [List.length_take_of_le hk] at hrun
  · obtain ⟨t, hrun, hrf, hpc, hcycle⟩ := run_resetWith (is := is) (js := []) (by rwa [List.append_nil])
    have hzero : (State.resetWith p im).cycle.toNat = 0 := rfl
    have hlt : is.length < 2 ^ 32 := hpc ▸ t.pc.isLt
    exact ⟨t, hrun, h.driverRun_complete hrun (by omega) (by omega), hrf, hpc, hcycle⟩

end Sys2Proof.Machine
end
